-- ==== Sys2Proof/Word.lean ====
section
/-! DEFINITION. The widths of the block's registers, commands, tokens and indices (00_scope.md R6, 10_state.md R20).
All values are unsigned and arithmetic on a width is modulo two to that width (R7), as on `BitVec`. -/

namespace Sys2Proof

/-- An input byte, and the 8-bit code of an output character (R6). -/
abbrev Byte := BitVec 8

/-- A command word, `OP[10:8]` and `DATA[7:0]` (R60). -/
abbrev CmdWord := BitVec 11

/-- An output token word, `KIND[9:8]` and `DATA[7:0]` (R66). -/
abbrev TokenWord := BitVec 10

/-- A variant selector, the width of VSEL (R24). -/
abbrev Vsel := BitVec 3

/-- A symbol index (R6). -/
abbrev Idx := BitVec 5

/-- The width of ACC (R21). -/
abbrev Acc := BitVec 12

/-- The width of CNT (R22). -/
abbrev Cnt := BitVec 4

/-- The width of NSYM (R23). -/
abbrev Nsym := BitVec 3

end Sys2Proof
end

