-- ==== Sys2Proof/Syntax.lean ====
section
/-! DEFINITION. The commands: one constructor for each row of opcode_table.json (30_encoding.md R63).
A reserved word is no command and has no constructor: it is what `decode` rejects (R64, R65). -/

namespace Sys2Proof

/-- The four commands with their operands (R62). Every value of an operand's width is legal, so every term is
well formed. -/
inductive Instr where
  /-- BYTE `b`: one input byte (R90). -/
  | byte (b : Byte)
  /-- START `vsel`: open a frame (R80). -/
  | start (vsel : Vsel)
  /-- STARTN `vsel`: an encode call whose input is absent (R81). -/
  | startn (vsel : Vsel)
  /-- END: flush, pad and close the frame (R100). -/
  | endFrame
  deriving DecidableEq, Repr

end Sys2Proof
end

