-- ==== Sys2Proof/AsmSyntax.lean ====
section
/-! DEFINITION. Assembler lines as terms (30_encoding.md R69 to R72). Numbers are plain: an operand may be out of its
range here, and `AsmLine.wf` is the check (R71). -/

namespace Sys2Proof

/-- The variant names of R70. -/
inductive VariantName where
  | rfc4648
  | exthex
  | zbase32
  | crockford
  | electrologica
  | geohash
  | wordsafe
  | recommended
  deriving DecidableEq, Repr

/-- A `variant` operand: a number or a name (R70). -/
inductive VariantOperand where
  | number (n : Nat)
  | name (v : VariantName)
  deriving DecidableEq, Repr

/-- What follows the variant of an ENCODE: bytes, or a string (R72). -/
inductive AsmArgs where
  | bytes (bs : List Nat)
  | text (cs : List Char)
  deriving DecidableEq, Repr

/-- One line of assembler source: a command, `.word`, or a pseudo-instruction (R69, R72). -/
inductive AsmLine where
  /-- `BYTE imm8`. -/
  | byte (imm8 : Nat)
  /-- `START variant`. -/
  | start (v : VariantOperand)
  /-- `STARTN variant`. -/
  | startn (v : VariantOperand)
  /-- `END`. -/
  | endFrame
  /-- `.word imm11`. -/
  | word (imm11 : Nat)
  /-- `ENCODE variant, …`. -/
  | encode (v : VariantOperand) (args : AsmArgs)
  /-- `ENCODE_NULL variant`. -/
  | encodeNull (v : VariantOperand)
  /-- `ENCODE_<VARIANT> …`. -/
  | encodeAs (v : VariantName) (args : AsmArgs)
  deriving DecidableEq, Repr

end Sys2Proof
end

