-- ==== Sys2Proof/Config.lean ====
section
/-! DEFINITION. The alphabet ROM as data and its one parameter (10_state.md R29 to R31; 00_scope.md R6). -/

namespace Sys2Proof

/-- The alphabet ROM: six distinct tables of 32 character codes (R29). -/
structure Rom where
  /-- RFC4648. -/
  rfc4648 : Vector Byte 32
  /-- ExtendedHex. -/
  extHex : Vector Byte 32
  /-- ZBase32. -/
  zbase32 : Vector Byte 32
  /-- Crockford. -/
  crockford : Vector Byte 32
  /-- GeoHash. -/
  geohash : Vector Byte 32
  /-- WordSafe. -/
  wordsafe : Vector Byte 32
  deriving DecidableEq, Repr

/-- What an implementation fixes. The spec leaves no parameter open (R6); `ZB32_SYM31` is a field because
92_eei_decisions.md D11 asks that either value can be stated. -/
structure Config where
  /-- `ZB32_SYM31`, the ZBase32 symbol of index 31 (R31). -/
  zb32Sym31 : Byte
  deriving DecidableEq, Repr

/-- This hardware: `ZB32_SYM31` = 0x38, the character `8` (R6, R31). -/
def Config.hw : Config := ⟨0x38⟩

/-- The table RFC4648, also Electrologica and Recommended (R29). -/
def Rom.rfc4648Table : Vector Byte 32 :=
  #v[0x41, 0x42, 0x43, 0x44, 0x45, 0x46, 0x47, 0x48,
     0x49, 0x4A, 0x4B, 0x4C, 0x4D, 0x4E, 0x4F, 0x50,
     0x51, 0x52, 0x53, 0x54, 0x55, 0x56, 0x57, 0x58,
     0x59, 0x5A, 0x32, 0x33, 0x34, 0x35, 0x36, 0x37]

/-- The table ExtendedHex (R29). -/
def Rom.extHexTable : Vector Byte 32 :=
  #v[0x30, 0x31, 0x32, 0x33, 0x34, 0x35, 0x36, 0x37,
     0x38, 0x39, 0x41, 0x42, 0x43, 0x44, 0x45, 0x46,
     0x47, 0x48, 0x49, 0x4A, 0x4B, 0x4C, 0x4D, 0x4E,
     0x4F, 0x50, 0x51, 0x52, 0x53, 0x54, 0x55, 0x56]

/-- The table ZBase32, less the symbol of index 31, which is the parameter `ZB32_SYM31` (R29). -/
def Rom.zbase32Table (c : Config) : Vector Byte 32 :=
  #v[0x79, 0x62, 0x6E, 0x64, 0x72, 0x66, 0x67, 0x38,
     0x65, 0x6A, 0x6B, 0x6D, 0x63, 0x70, 0x71, 0x78,
     0x6F, 0x74, 0x31, 0x75, 0x77, 0x69, 0x73, 0x7A,
     0x61, 0x33, 0x34, 0x35, 0x68, 0x37, 0x36, c.zb32Sym31]

/-- The table Crockford (R29). -/
def Rom.crockfordTable : Vector Byte 32 :=
  #v[0x30, 0x31, 0x32, 0x33, 0x34, 0x35, 0x36, 0x37,
     0x38, 0x39, 0x61, 0x62, 0x63, 0x64, 0x65, 0x66,
     0x67, 0x68, 0x6A, 0x6B, 0x6D, 0x6E, 0x70, 0x71,
     0x72, 0x73, 0x74, 0x76, 0x77, 0x78, 0x79, 0x7A]

/-- The table GeoHash (R29). -/
def Rom.geohashTable : Vector Byte 32 :=
  #v[0x30, 0x31, 0x32, 0x33, 0x34, 0x35, 0x36, 0x37,
     0x38, 0x39, 0x62, 0x63, 0x64, 0x65, 0x66, 0x67,
     0x68, 0x6A, 0x6B, 0x6D, 0x6E, 0x70, 0x71, 0x72,
     0x73, 0x74, 0x75, 0x76, 0x77, 0x78, 0x79, 0x7A]

/-- The table WordSafe (R29). -/
def Rom.wordsafeTable : Vector Byte 32 :=
  #v[0x61, 0x62, 0x63, 0x64, 0x65, 0x66, 0x67, 0x68,
     0x69, 0x6A, 0x6B, 0x6C, 0x6D, 0x6E, 0x6F, 0x70,
     0x71, 0x72, 0x73, 0x74, 0x75, 0x76, 0x77, 0x78,
     0x79, 0x7A, 0x32, 0x33, 0x34, 0x35, 0x36, 0x37]

/-- The ROM's content under a configuration (R29). -/
def Config.rom (c : Config) : Rom where
  rfc4648 := Rom.rfc4648Table
  extHex := Rom.extHexTable
  zbase32 := Rom.zbase32Table c
  crockford := Rom.crockfordTable
  geohash := Rom.geohashTable
  wordsafe := Rom.wordsafeTable

end Sys2Proof
end

