-- ==== Sys2Proof/Machine/Token.lean ====
section
/-! DEFINITION. Output tokens and error codes (30_encoding.md R66; 60_exceptions.md R121). -/

namespace Sys2Proof.Machine

/-- The four token kinds (R66). -/
inductive TokenKind where
  /-- One symbol's character. -/
  | sym
  /-- The padding character. -/
  | pad
  /-- End of a frame. -/
  | eof
  /-- An error report. -/
  | err
  deriving DecidableEq, Repr

/-- `KIND[9:8]` (R66). -/
def TokenKind.bits : TokenKind → BitVec 2
  | .sym => 0b00
  | .pad => 0b01
  | .eof => 0b10
  | .err => 0b11

/-- An output token: its kind and its DATA byte (R66). -/
structure Token where
  kind : TokenKind
  data : Byte
  deriving DecidableEq, Repr

/-- The 10-bit word of a token on `out_token`: `KIND[9:8]`, `DATA[7:0]` (R66). -/
def Token.word (t : Token) : TokenWord := t.kind.bits ++ t.data

/-- The padding character `=`, 0x3D (R32). -/
def padChar : Byte := 0x3D

/-- The four errors (R121). -/
inductive ErrCode where
  /-- The input byte sequence is absent (R122). -/
  | nullInput
  /-- A byte or an end with no frame open (R123). -/
  | noFrame
  /-- A new call while a frame is open (R124). -/
  | frameOpen
  /-- The command word is reserved (R125). -/
  | reserved
  deriving DecidableEq, Repr

/-- The code an ERR token carries (R121). -/
def ErrCode.code : ErrCode → Byte
  | .nullInput => 0x01
  | .noFrame => 0x02
  | .frameOpen => 0x03
  | .reserved => 0x04

/-- The ERR token of an error (R120). -/
def ErrCode.token (e : ErrCode) : Token := ⟨.err, e.code⟩

end Sys2Proof.Machine
end

