-- ==== Sys2Proof/WellFormed.lean ====
section
/-! DEFINITION. What is checked before it is used.
`Instr` needs no check: its operands have exactly the widths of their fields, and every value is legal (30_encoding.md R62).
Checked are the operand ranges of an assembler line (R71) and the tokens the block may emit (R67). -/

namespace Sys2Proof

/-- An `imm8` is 0 to 255 (R71). -/
def imm8Ok (n : Nat) : Bool := decide (n < 256)

/-- An `imm11` is 0 to 2047 (R71). -/
def imm11Ok (n : Nat) : Bool := decide (n < 2048)

/-- A character with an ASCII code (R72). -/
def asciiOk (c : Char) : Bool := decide (c.toNat < 128)

/-- A printable ASCII character, 0x20 to 0x7E (R71). -/
def printableOk (c : Char) : Bool := decide (0x20 ≤ c.toNat ∧ c.toNat ≤ 0x7E)

/-- A variant number is 0 to 7; a name always stands for one (R70, R71). -/
def VariantOperand.wf : VariantOperand → Bool
  | .number n => decide (n < 8)
  | .name _ => true

/-- The bytes, or the characters, of an ENCODE are in range (R71, R72). -/
def AsmArgs.wf : AsmArgs → Bool
  | .bytes bs => bs.all imm8Ok
  | .text cs => cs.all asciiOk

/-- A line the assembler accepts (R71). -/
def AsmLine.wf : AsmLine → Bool
  | .byte n => imm8Ok n
  | .start v => v.wf
  | .startn v => v.wf
  | .endFrame => true
  | .word n => imm11Ok n
  | .encode v args => v.wf && args.wf
  | .encodeNull v => v.wf
  | .encodeAs _ args => args.wf

/-- A character is in some table of the ROM. -/
def Rom.holds (r : Rom) (c : Byte) : Bool :=
  [r.rfc4648, r.extHex, r.zbase32, r.crockford, r.geohash, r.wordsafe].any fun t => t.toList.contains c

/-- A token this hardware may emit (R67): a SYM carries a ROM character, a PAD 0x3D, an EOF 0x00, an ERR one of the
codes 0x01 to 0x04. -/
def Machine.Token.wf (t : Machine.Token) : Bool :=
  match t.kind with
  | .sym => Config.hw.rom.holds t.data
  | .pad => t.data == Machine.padChar
  | .eof => t.data == 0x00
  | .err => decide (0x01#8 ≤ t.data ∧ t.data ≤ 0x04#8)

end Sys2Proof
end

