-- ==== Sys2Proof/Decode.lean ====
section
/-! DEFINITION. Decoding a command word, total over all 2048 words (30_encoding.md R65), the opcode map as data (R63), and
the encoder (R61, R69). -/

namespace Sys2Proof

/-- Why a word is reserved (R64). -/
inductive ReservedWhy where
  /-- OP is 100, 101, 110 or 111. -/
  | opcode
  /-- A reserved bit of DATA is not zero. -/
  | nonzeroBits
  deriving DecidableEq, Repr

/-- What a word decodes to: a command, or RESERVED (R65). -/
inductive Decoded where
  | command (i : Instr)
  | reserved (why : ReservedWhy)
  deriving DecidableEq, Repr

/-- `OP[10:8]` (R60). -/
def opField (w : CmdWord) : BitVec 3 := w.extractLsb' 8 3

/-- `DATA[7:0]` (R60). -/
def dataField (w : CmdWord) : Byte := w.extractLsb' 0 8

/-- `DATA[7:3]`, reserved in formats V and Z (R61). -/
def upperData (d : Byte) : BitVec 5 := d.extractLsb' 3 5

/-- `DATA[2:0]`, the VSEL operand of format V (R61, R62). -/
def vselData (d : Byte) : Vsel := d.extractLsb' 0 3

/-- `Decode(w)` (R65). -/
def decode (w : CmdWord) : Decoded :=
  let op := opField w
  let d := dataField w
  if op = 0b000#3 then .command (.byte d)
  else if op = 0b001#3 then
    if upperData d = 0#5 then .command (.start (vselData d)) else .reserved .nonzeroBits
  else if op = 0b010#3 then
    if upperData d = 0#5 then .command (.startn (vselData d)) else .reserved .nonzeroBits
  else if op = 0b011#3 then
    if d = 0x00#8 then .command .endFrame else .reserved .nonzeroBits
  else .reserved .opcode

/-- The word of a command, format by format (R61, R69). -/
def encode : Instr → CmdWord
  | .byte b => 0b000#3 ++ b
  | .start vsel => 0b001#3 ++ 0b00000#5 ++ vsel
  | .startn vsel => 0b010#3 ++ 0b00000#5 ++ vsel
  | .endFrame => 0b011#3 ++ 0x00#8

/-- One row of the opcode map: a word `w` is the instruction of the row when `(w & mask) = pattern` (R63). -/
structure OpRow where
  mnemonic : String
  pattern : CmdWord
  mask : CmdWord
  deriving DecidableEq, Repr

/-- A word is of a row (R63). -/
def OpRow.holds (r : OpRow) (w : CmdWord) : Bool := (w &&& r.mask) == r.pattern

/-- The opcode map's row of a command's constructor (R63). -/
def Instr.row : Instr → OpRow
  | .byte _ => ⟨"BYTE", 0x000, 0x700⟩
  | .start _ => ⟨"START", 0x100, 0x7F8⟩
  | .startn _ => ⟨"STARTN", 0x200, 0x7F8⟩
  | .endFrame => ⟨"END", 0x300, 0x7FF⟩

/-- The row of the reserved opcodes (R63). -/
def reservedRow : OpRow := ⟨"reserved", 0x400, 0x400⟩

/-- The opcode map, in the order of R63. -/
def opcodeMap : List OpRow :=
  [(Instr.byte 0).row, (Instr.start 0).row, (Instr.startn 0).row, Instr.endFrame.row, reservedRow]

/-- The instruction of a table word: the low `nbits` bits of `w`, which must be a word of the 11-bit command port. -/
def decodeTableWord (nbits w : Nat) : Option Instr :=
  let v := w % 2 ^ nbits
  if v < 2048 then
    match decode (BitVec.ofNat 11 v) with
    | .command i => some i
    | .reserved _ => none
  else none

end Sys2Proof
end

