-- ==== Sys2Proof/Machine/State.lean ====
section
/-! DEFINITION. The state of the block and of its ports (10_state.md R20, R29, R37; 70_reset_and_hazards.md R143), its value
after reset (R38), and the reasons a step could stop. -/

namespace Sys2Proof.Machine

/-- The levels of `rst` and `out_ready` at one rising edge (R143). -/
structure EdgeInput where
  rst : Bool
  outReady : Bool
  deriving DecidableEq, Repr

/-- The block, its input ports, and what the consumer has received. -/
structure State where
  /-- FOPEN: a frame is open (R25). -/
  fopen : Bool
  /-- VSEL: the variant of the current or last frame (R24). -/
  vsel : Vsel
  /-- ACC: the bit accumulator, stale bits and all (R21, R37). -/
  acc : Acc
  /-- CNT: how many bits of ACC are significant (R22). -/
  cnt : Cnt
  /-- NSYM: SYM and PAD tokens of the frame, modulo 8 (R23). -/
  nsym : Nsym
  /-- The alphabet ROM (R29); nothing writes it (R30). -/
  rom : Rom
  /-- The token buffer, oldest first (R37, R147). -/
  tokenBuf : List Token
  /-- Input port `rst`: its level at the next rising edge (R140). -/
  rst : Bool
  /-- Input port `out_ready`: its level at the next rising edge (R146). -/
  outReady : Bool
  /-- The words the producer has still to transfer, the offered one first: `cmd_valid` and `cmd_word` (R143, R144).
  DESIGN CHOICE, log entry 1. -/
  cmdQueue : List CmdWord
  /-- The model's own: `rst` and `out_ready` at the edges after the next; when empty, the levels hold.
  DESIGN CHOICE, log entry 2. -/
  edges : List EdgeInput
  /-- The model's own: tokens transferred on the output port since the last reset (R9, R47). DESIGN CHOICE, log entry 7. -/
  delivered : List Token
  /-- The model's own: tokens transferred before the last reset (R140). DESIGN CHOICE, log entry 7. -/
  deliveredBefore : List Token
  deriving DecidableEq, Repr

/-- There is no fault: no rule of the spec stops the block. An error is an ERR token, after which the block goes on
(60_exceptions.md R120, R128). Nobody raises one; safe. Log entry 13. -/
inductive Fault where
  deriving DecidableEq, Repr

/-- Why a step has no meaning. -/
inductive Refusal where
  /-- Raised by an arm of `exec` whose instruction has no meaning yet; no arm does. Safe: it would stop the run. -/
  | notModelled (mnemonic : String)
  deriving DecidableEq, Repr

/-- The machine right after reset: every register as R38 gives it, the ROM as R29 gives it.
The ports: `rst` has fallen (DEDUCED from R142), the consumer is ready, no word is offered, the levels hold
(DESIGN CHOICE, log entries 1 and 2); nothing has been delivered (DESIGN CHOICE, log entry 7). -/
def State.reset : State where
  fopen := false
  vsel := 0
  acc := 0x000
  cnt := 0
  nsym := 0
  rom := Config.hw.rom
  tokenBuf := []
  rst := false
  outReady := true
  cmdQueue := []
  edges := []
  delivered := []
  deliveredBefore := []

end Sys2Proof.Machine
end

