-- ==== Sys2Proof/Machine/Flags.lean ====
section
/-! DEFINITION. The block has no flags (10_state.md R35). What it shows of its status are its output ports, each a function of
the state (70_reset_and_hazards.md R143 to R147), and the two levels of the producer's port. -/

namespace Sys2Proof.Machine

/-- Output port `frame_open`: FOPEN (R145). -/
def State.frameOpen (s : State) : Bool := s.fopen

/-- Output port `cmd_ready`: 1 exactly when `rst` = 0 and the buffer is empty (R147). -/
def State.cmdReady (s : State) : Bool := !s.rst && s.tokenBuf.isEmpty

/-- Output port `out_valid`: 1 exactly when the buffer is not empty (R146), and 0 in a cycle of reset (R140).
DEDUCED, log entry 5. -/
def State.outValid (s : State) : Bool := !s.rst && !s.tokenBuf.isEmpty

/-- Output port `out_token`: the oldest token while `out_valid` is 1 (R146). While `out_valid` is 0 the spec gives the port no
value, and the model gives `none`, which no operation reads: DESIGN CHOICE, log entry 5. -/
def State.outToken (s : State) : Option TokenWord :=
  if s.outValid then s.tokenBuf.head?.map Token.word else none

/-- Input port `cmd_valid`: the producer offers a word (R143). DESIGN CHOICE, log entry 1. -/
def State.cmdValid (s : State) : Bool := !s.cmdQueue.isEmpty

/-- Input port `cmd_word`: the offered word while `cmd_valid` is 1 (R143), and `none` while it is 0: DESIGN CHOICE, log
entry 1. -/
def State.cmdWord (s : State) : Option CmdWord := s.cmdQueue.head?

end Sys2Proof.Machine
end

