-- ==== Sys2Proof/Machine/Operands.lean ====
section
/-! DEFINITION. The values the commands compute from registers and operands: the ROM read (20_memory.md R41), the shift-in and
the index of a group (41_byte.md R90), the index of the last, partial group (42_frame_close.md R100). -/

namespace Sys2Proof.Machine

/-- The ROM table a VSEL value selects (R24, R41); 0, 4 and 7 select RFC4648. -/
def romTable (rom : Rom) (vsel : Vsel) : Vector Byte 32 :=
  if vsel = 1#3 then rom.extHex
  else if vsel = 2#3 then rom.zbase32
  else if vsel = 3#3 then rom.crockford
  else if vsel = 5#3 then rom.geohash
  else if vsel = 6#3 then rom.wordsafe
  else rom.rfc4648

/-- `RomRead(vsel, idx)`, total (R41). -/
def romRead (rom : Rom) (vsel : Vsel) (idx : Idx) : Byte := (romTable rom vsel).get idx.toFin

/-- `a <- ((ACC << 8) | zext_12(b)) [11:0]` (R90). -/
def shiftIn (acc : Acc) (b : Byte) : Acc := (acc <<< 8) ||| b.setWidth 12

/-- `c <- zext_5(CNT) + 8` (R90). -/
def countIn (cnt : Cnt) : BitVec 5 := cnt.setWidth 5 + 8#5

/-- `idx <- (a >> c) & 5'h1F` (R90). -/
def groupIdx (a : Acc) (c : BitVec 5) : Idx := ((a >>> c.toNat) &&& 0x1F#12).setWidth 5

/-- `idx <- (zext_16(ACC) << (5 - CNT)) & 5'h1F` (R100). The subtraction is on CNT's four bits, modulo 16 (R7), which only
matters for CNT above 5, where no run gets (R26): DEDUCED, log entry 9. -/
def flushIdx (acc : Acc) (cnt : Cnt) : Idx :=
  ((acc.setWidth 16 <<< (5#4 - cnt).toNat) &&& 0x1F#16).setWidth 5

end Sys2Proof.Machine
end

