-- ==== Sys2Proof/Machine/Ops.lean ====
section
/-! DEFINITION. The named operations the commands and the clock edge are made of. Raising an error (60_exceptions.md R120) is
ONE of them; there is no return from an error (R128). -/

namespace Sys2Proof.Machine

/-- `Emit(kind, data)`: one more token, after those already there (R8, R44). The buffer is empty when a command is accepted
(R147); on a state where it is not, the earlier tokens stay ahead: log entry 10. -/
def emit (kind : TokenKind) (data : Byte) (s : State) : State :=
  { s with tokenBuf := s.tokenBuf ++ [⟨kind, data⟩] }

/-- `NSYM <- (NSYM + 1) mod 8` (R23). -/
def countSymbol (s : State) : State := { s with nsym := s.nsym + 1 }

/-- `Emit(SYM, RomRead(VSEL, idx)); NSYM <- (NSYM + 1) mod 8` (R90, R100). -/
def emitSymbol (idx : Idx) (s : State) : State := countSymbol (emit .sym (romRead s.rom s.vsel idx) s)

/-- `Emit(PAD, 8'h3D); NSYM <- (NSYM + 1) mod 8` (R100). -/
def emitPad (s : State) : State := countSymbol (emit .pad padChar s)

/-- `Emit(EOF, 8'h00)` (R100). -/
def emitEof (s : State) : State := emit .eof 0x00 s

/-- `raise Err(code)`: no register changes, and exactly one ERR token is emitted (R120). -/
def raiseErr (e : ErrCode) (s : State) : State := emit .err e.code s

/-- The registers of an opened frame (R80). -/
def openFrame (vsel : Vsel) (s : State) : State :=
  { s with fopen := true, vsel := vsel, acc := 0x000, cnt := 0, nsym := 0 }

/-- The registers after a frame; VSEL is not written (R100). -/
def closeFrame (s : State) : State := { s with fopen := false, acc := 0x000, cnt := 0, nsym := 0 }

/-- `ACC <- a; CNT <- c[3:0]` (R90). -/
def writeAcc (a : Acc) (c : BitVec 5) (s : State) : State := { s with acc := a, cnt := c.setWidth 4 }

/-- The drain loop of R90, `while c >= 5`, from the 5-bit count `c`: the state after its symbols, and the count left. The
first argument bounds the rounds; `drainRounds` of them are enough for every `c` (Laws/Ops.lean). -/
def drain : Nat → Acc → BitVec 5 → State → State × BitVec 5
  | 0, _, c, s => (s, c)
  | n + 1, a, c, s => if 5#5 ≤ c then drain n a (c - 5#5) (emitSymbol (groupIdx a (c - 5#5)) s) else (s, c)

/-- Six rounds take any 5-bit count below 5. -/
def drainRounds : Nat := 6

/-- The final partial group of R100: a symbol when CNT > 0. -/
def flush (s : State) : State := if 0#4 < s.cnt then emitSymbol (flushIdx s.acc s.cnt) s else s

/-- The padding loop of R100, `while NSYM != 0`. -/
def padTo8 : Nat → State → State
  | 0, s => s
  | n + 1, s => if s.nsym = 0#3 then s else padTo8 n (emitPad s)

/-- Seven rounds take any NSYM to 0. -/
def padRounds : Nat := 7

/-- A clock edge with `rst` = 1: every register at its reset value, the buffer emptied and its tokens lost, no command
accepted, the ROM unaffected (R140, R38). What the consumer already has stays (`deliveredBefore`). -/
def resetBlock (s : State) : State :=
  { s with
    fopen := false, vsel := 0, acc := 0x000, cnt := 0, nsym := 0, tokenBuf := []
    delivered := [], deliveredBefore := s.deliveredBefore ++ s.delivered }

/-- A token transfer: the oldest token leaves the buffer for the consumer (R146). -/
def transferToken (s : State) : State :=
  { s with tokenBuf := s.tokenBuf.tail, delivered := s.delivered ++ s.tokenBuf.take 1 }

/-- The consumer has accepted every token of the buffer, one transfer after another (R146). -/
def takeAll (s : State) : State := { s with tokenBuf := [], delivered := s.delivered ++ s.tokenBuf }

/-- The offered word has transferred; the producer's next word, if any, is offered (R144). -/
def popCommand (s : State) : State := { s with cmdQueue := s.cmdQueue.tail }

/-- The levels of `rst` and `out_ready` at the next edge: the schedule's next, or the present ones. DESIGN CHOICE, log
entry 2. -/
def advancePins (s : State) : State :=
  match s.edges with
  | [] => s
  | e :: es => { s with rst := e.rst, outReady := e.outReady, edges := es }

/-- Apply `f` to a next state; a fault or a refusal stays. -/
def onNext (f : State → State) : Host.Outcome State Fault Refusal → Host.Outcome State Fault Refusal
  | .next s => .next (f s)
  | .fault r => .fault r
  | .refused r => .refused r

end Sys2Proof.Machine
end

