-- ==== Sys2Proof/Machine/ByteData.lean ====
section
/-! DEFINITION. The data command (41_byte.md). -/

namespace Sys2Proof.Machine

/-- BYTE on an open frame: shift the byte in, drain every whole group, write ACC and CNT (R90; on CNT 5 to 15 too, R94). -/
def foldByte (b : Byte) (s : State) : State :=
  let a := shiftIn s.acc b
  let r := drain drainRounds a (countIn s.cnt) s
  writeAcc a r.2 r.1

/-- BYTE (R90): NO_FRAME with no frame open (R123), else the byte is folded in. -/
def execByte (b : Byte) (s : State) : Host.Outcome State Fault Refusal :=
  if s.fopen then .next (foldByte b s) else .next (raiseErr .noFrame s)

end Sys2Proof.Machine
end

