-- ==== Sys2Proof/Machine/FrameClose.lean ====
section
/-! DEFINITION. The frame close command (42_frame_close.md). -/

namespace Sys2Proof.Machine

/-- END on an open frame: flush, pad, EOF, close (R100). -/
def finishFrame (s : State) : State := closeFrame (emitEof (padTo8 padRounds (flush s)))

/-- END (R100): NO_FRAME with no frame open (R123), else the frame is finished. -/
def execEnd (s : State) : Host.Outcome State Fault Refusal :=
  if s.fopen then .next (finishFrame s) else .next (raiseErr .noFrame s)

end Sys2Proof.Machine
end

