-- ==== Sys2Proof/Machine/FrameOpen.lean ====
section
/-! DEFINITION. The frame open commands (40_frame_open.md). -/

namespace Sys2Proof.Machine

/-- START (R80): FRAME_OPEN when a frame is open (R124), else the frame opens; no token. -/
def execStart (vsel : Vsel) (s : State) : Host.Outcome State Fault Refusal :=
  if s.fopen then .next (raiseErr .frameOpen s) else .next (openFrame vsel s)

/-- STARTN (R81): FRAME_OPEN when a frame is open (R124), else NULL_INPUT (R122). The operand is decoded and unused. -/
def execStartn (_vsel : Vsel) (s : State) : Host.Outcome State Fault Refusal :=
  if s.fopen then .next (raiseErr .frameOpen s) else .next (raiseErr .nullInput s)

end Sys2Proof.Machine
end

