-- ==== Sys2Proof/Machine/Dispatch.lean ====
section
/-! DEFINITION. One arm per command (30_encoding.md R63). -/

namespace Sys2Proof.Machine

def exec (i : Instr) (s : State) : Host.Outcome State Fault Refusal :=
  match i with
  | .byte b => Sys2Proof.Machine.execByte b s
  | .start vsel => Sys2Proof.Machine.execStart vsel s
  | .startn vsel => Sys2Proof.Machine.execStartn vsel s
  | .endFrame => Sys2Proof.Machine.execEnd s

end Sys2Proof.Machine
end

