-- ==== Sys2Proof/Machine/Edge.lean ====
section
/-! DEFINITION. What the block does with a command word (30_encoding.md R65, 60_exceptions.md R125), what it does at one rising
edge of `clk` (70_reset_and_hazards.md R140, R144, R146, R147), and how a word is put where the next edge takes it. -/

namespace Sys2Proof.Machine

/-- Perform one accepted command word: decode it (R65), then the command's rule, or RESERVED (R125). This is `Step` of R9, with
the tokens placed in the buffer. -/
def perform (w : CmdWord) (s : State) : Host.Outcome State Fault Refusal :=
  match decode w with
  | .command i => exec i s
  | .reserved _ => .next (raiseErr .reserved s)

/-- What happens at a rising edge of `clk`. -/
inductive EdgeAction where
  /-- `rst` = 1 (R140). -/
  | reset
  /-- `out_valid` = 1 and `out_ready` = 1: the oldest token transfers (R146). -/
  | transfer
  /-- `out_valid` = 1 and `out_ready` = 0: the block holds, `cmd_ready` is 0 (R149). -/
  | hold
  /-- `cmd_valid` = 1 and `cmd_ready` = 1: the word transfers (R144). -/
  | command (w : CmdWord)
  /-- No token to offer and no word offered: the block is idle and keeps its state (R135). -/
  | idle
  deriving DecidableEq, Repr

/-- The edge's action, from the ports (R140, R144, R146, R147). -/
def edgeAction (s : State) : EdgeAction :=
  if s.rst then .reset
  else if s.outValid then (if s.outReady then .transfer else .hold)
  else
    match s.cmdQueue with
    | [] => .idle
    | w :: _ => .command w

/-- One rising edge of `clk`: the action, then the levels for the next edge. -/
def clockEdge (s : State) : Host.Outcome State Fault Refusal :=
  match edgeAction s with
  | .reset => .next (advancePins (resetBlock s))
  | .transfer => .next (advancePins (transferToken s))
  | .hold => .next (advancePins s)
  | .command w => onNext advancePins (perform w (popCommand s))
  | .idle => .next (advancePins s)

/-- The producer offers `w` and the block can take it: `rst` is 0, the consumer has taken what was buffered, and `w` is ahead
of the producer's other words. Log entry 4. -/
def offerWord (w : CmdWord) (s : State) : State :=
  { takeAll s with rst := false, cmdQueue := w :: s.cmdQueue }

end Sys2Proof.Machine
end

