-- ==== Sys2Proof/Machine/Step.lean ====
section
/-! DEFINITION. The step: one rising edge of `clk` (log entry 3); and where a test puts the next command word. -/

namespace Sys2Proof.Machine

/-- One rising edge of `clk`. -/
def step (s : State) : Host.Outcome State Fault Refusal := clockEdge s

/-- The command word `w` (its low `nbits` bits, on the 11-bit port) is offered, and the next edge takes it. -/
def State.withFetchWord (s : State) (nbits w : Nat) : State := offerWord (BitVec.ofNat 11 (w % 2 ^ nbits)) s

end Sys2Proof.Machine
end

