-- ==== Sys2Proof/Machine/Assembler.lean ====
section
/-! DEFINITION. The assembler (30_encoding.md R69 to R72): from a line's term to command words, and from a line's text to its
term. Lexical details the spec leaves open are in log entry 11. -/

namespace Sys2Proof.Machine

/-- Why the assembler refuses a line (R71). -/
inductive AsmError where
  /-- An `imm8` outside 0 to 255. -/
  | imm8
  /-- A `variant` outside 0 to 7. -/
  | variant
  /-- A name that is not in the table of R70. -/
  | unknownVariant
  /-- An `imm11` outside 0 to 2047. -/
  | imm11
  /-- A character with no ASCII code. -/
  | character
  /-- The text is no line of R69 or R72. -/
  | form
  deriving DecidableEq, Repr

/-- What the assembler answers. -/
inductive AsmResult (α : Type) where
  | ok (a : α)
  | error (e : AsmError)
  deriving DecidableEq, Repr

/-- Continue with an accepted value. -/
def AsmResult.andThen {α β : Type} (r : AsmResult α) (f : α → AsmResult β) : AsmResult β :=
  match r with
  | .ok a => f a
  | .error e => .error e

/-- The VSEL value of a name (R70). -/
def variantVsel : VariantName → Vsel
  | .rfc4648 => 0
  | .exthex => 1
  | .zbase32 => 2
  | .crockford => 3
  | .electrologica => 4
  | .geohash => 5
  | .wordsafe => 6
  | .recommended => 7

/-- The VSEL value of a `variant` operand, refused out of range (R70, R71). -/
def operandVsel : VariantOperand → AsmResult Vsel
  | .name v => .ok (variantVsel v)
  | .number n => if (VariantOperand.number n).wf then .ok (BitVec.ofNat 3 n) else .error .variant

/-- The bytes of an ENCODE: its numbers, or the ASCII codes of its characters (R71, R72). -/
def argBytes : AsmArgs → AsmResult (List Byte)
  | .bytes bs => if bs.all imm8Ok then .ok (bs.map (BitVec.ofNat 8)) else .error .imm8
  | .text cs => if cs.all asciiOk then .ok (cs.map (fun c => BitVec.ofNat 8 c.toNat)) else .error .character

/-- `START variant`, one BYTE for each byte, `END` (R72). -/
def expandEncode (vsel : Vsel) (bytes : List Byte) : List Instr :=
  Instr.start vsel :: bytes.map Instr.byte ++ [Instr.endFrame]

/-- `ENCODE variant, args` (R72). -/
def assembleEncode (v : VariantOperand) (args : AsmArgs) : AsmResult (List CmdWord) :=
  (operandVsel v).andThen fun vsel => (argBytes args).andThen fun bytes => .ok ((expandEncode vsel bytes).map encode)

/-- The words of a line, or the refusal of it (R69 to R72). -/
def assembleLine : AsmLine → AsmResult (List CmdWord)
  | .byte n => if imm8Ok n then .ok [encode (.byte (BitVec.ofNat 8 n))] else .error .imm8
  | .start v => (operandVsel v).andThen fun vsel => .ok [encode (.start vsel)]
  | .startn v => (operandVsel v).andThen fun vsel => .ok [encode (.startn vsel)]
  | .endFrame => .ok [encode .endFrame]
  | .word n => if imm11Ok n then .ok [BitVec.ofNat 11 n] else .error .imm11
  | .encode v args => assembleEncode v args
  | .encodeNull v => (operandVsel v).andThen fun vsel => .ok [encode (.startn vsel)]
  | .encodeAs v args => assembleEncode (.name v) args

/-- The words of several lines, in order. One refused line refuses them all: R71 says what becomes of the line, not of the
others. DESIGN CHOICE, log entry 11. -/
def assembleLines : List AsmLine → AsmResult (List CmdWord)
  | [] => .ok []
  | l :: ls => (assembleLine l).andThen fun ws => (assembleLines ls).andThen fun rest => .ok (ws ++ rest)

/-! ### From text to terms -/

/-- A piece of a source line: a word, a comma, a character literal, a string. -/
inductive Lexeme where
  | word (cs : List Char)
  | comma
  | chr (c : Char)
  | text (cs : List Char)
  deriving DecidableEq, Repr

/-- Where the reading of a line stands; characters gathered so far are held last first. -/
inductive LexMode where
  | between
  | word (rev : List Char)
  | text (rev : List Char)
  | chrOpen
  | chrShut (c : Char)
  | comment
  | bad
  deriving DecidableEq, Repr

/-- The reading of a line: the mode, and the lexemes so far, last first. -/
structure LexState where
  mode : LexMode
  rev : List Lexeme
  deriving DecidableEq, Repr

/-- White space between the parts of a line. DESIGN CHOICE, log entry 11. -/
def isBlank (c : Char) : Bool := c == ' ' || c == '\t'

/-- One character outside a literal, the lexemes before it complete. -/
def lexPlain (rev : List Lexeme) (c : Char) : LexState :=
  if isBlank c then ⟨.between, rev⟩
  else if c == ';' then ⟨.comment, rev⟩
  else if c == ',' then ⟨.between, .comma :: rev⟩
  else if c == '"' then ⟨.text [], rev⟩
  else if c == '\'' then ⟨.chrOpen, rev⟩
  else ⟨.word [c], rev⟩

/-- A character that ends a word: white space, `;`, `,` or a quote. -/
def endsWord (c : Char) : Bool := isBlank c || c == ';' || c == ',' || c == '"' || c == '\''

/-- One character of a line (R69, R71, R72); a `;` inside a literal starts no comment. -/
def lexChar (st : LexState) (c : Char) : LexState :=
  match st.mode with
  | .between => lexPlain st.rev c
  | .word rev => if endsWord c then lexPlain (.word rev.reverse :: st.rev) c else ⟨.word (c :: rev), st.rev⟩
  | .text rev => if c == '"' then ⟨.between, .text rev.reverse :: st.rev⟩ else ⟨.text (c :: rev), st.rev⟩
  | .chrOpen => ⟨.chrShut c, st.rev⟩
  | .chrShut d => if c == '\'' then ⟨.between, .chr d :: st.rev⟩ else ⟨.bad, st.rev⟩
  | .comment => st
  | .bad => st

/-- The lexemes of a line; an unfinished literal is refused. -/
def lexLine (cs : List Char) : AsmResult (List Lexeme) :=
  let st := cs.foldl lexChar ⟨.between, []⟩
  match st.mode with
  | .between => .ok st.rev.reverse
  | .comment => .ok st.rev.reverse
  | .word rev => .ok (Lexeme.word rev.reverse :: st.rev).reverse
  | .text _ => .error .form
  | .chrOpen => .error .form
  | .chrShut _ => .error .form
  | .bad => .error .form

/-- The value of a digit, hexadecimal digits in either case. -/
def digitValue (c : Char) : Option Nat :=
  let n := c.toNat
  if 48 ≤ n ∧ n ≤ 57 then some (n - 48)
  else if 65 ≤ n ∧ n ≤ 70 then some (n - 55)
  else if 97 ≤ n ∧ n ≤ 102 then some (n - 87)
  else none

/-- One more digit of a number in a base. -/
def addDigit (base : Nat) (acc : Option Nat) (c : Char) : Option Nat :=
  match acc, digitValue c with
  | some n, some d => if d < base then some (n * base + d) else none
  | _, _ => none

/-- A number: digits of the base, at least one. -/
def readDigits (base : Nat) (cs : List Char) : Option Nat :=
  if cs.isEmpty then none else cs.foldl (addDigit base) (some 0)

/-- "Numbers are decimal, or hexadecimal with a `0x` prefix" (R69). -/
def readNumber : List Char → Option Nat
  | '0' :: 'x' :: ds => readDigits 16 ds
  | ds => readDigits 10 ds

/-- The names of R70. -/
def variantNames : List (String × VariantName) :=
  [("RFC4648", .rfc4648), ("EXTHEX", .exthex), ("ZBASE32", .zbase32), ("CROCKFORD", .crockford),
    ("ELECTROLOGICA", .electrologica), ("GEOHASH", .geohash), ("WORDSAFE", .wordsafe), ("RECOMMENDED", .recommended)]

/-- A name of R70. -/
def readName (cs : List Char) : Option VariantName :=
  (variantNames.find? fun p => p.1.toList == cs).map (·.2)

/-- A `variant` operand: a name of R70 or a number. -/
def readVariant (cs : List Char) : AsmResult VariantOperand :=
  match readName cs with
  | some v => .ok (.name v)
  | none =>
    match readNumber cs with
    | some n => .ok (.number n)
    | none => .error .unknownVariant

/-- An `imm8`: a number, or a character literal (R71). -/
def readImm8 : Lexeme → AsmResult Nat
  | .word cs =>
    match readNumber cs with
    | some n => .ok n
    | none => .error .form
  | .chr c => if printableOk c then .ok c.toNat else .error .character
  | .comma => .error .form
  | .text _ => .error .form

/-- `b0, b1, ..., bk`: at least one `imm8`, commas between (R72). -/
def readBytes : List Lexeme → AsmResult (List Nat)
  | [] => .error .form
  | [x] => (readImm8 x).andThen fun n => .ok [n]
  | x :: .comma :: rest => (readImm8 x).andThen fun n => (readBytes rest).andThen fun ns => .ok (n :: ns)
  | _ :: _ :: _ => .error .form

/-- The bytes or the string of an ENCODE, at least one of them (R72). -/
def readArgs : List Lexeme → AsmResult AsmArgs
  | [.text cs] => .ok (.text cs)
  | ls => (readBytes ls).andThen fun ns => .ok (.bytes ns)

/-- The operands of ENCODE: a variant, then nothing, or a comma and bytes or a string (R72). -/
def readEncode : List Lexeme → AsmResult AsmLine
  | [.word v] => (readVariant v).andThen fun v => .ok (.encode v (.bytes []))
  | .word v :: .comma :: ls => (readVariant v).andThen fun v => (readArgs ls).andThen fun args => .ok (.encode v args)
  | _ => .error .form

/-- The operand of a command that takes a variant alone. -/
def readOneVariant (line : VariantOperand → AsmLine) : List Lexeme → AsmResult AsmLine
  | [.word v] => (readVariant v).andThen fun v => .ok (line v)
  | _ => .error .form

/-- The operands of an `ENCODE_<VARIANT>` (R72). With none it is the empty frame, like `ENCODE variant` with no bytes; R72 writes
the mnemonic only with `args`. DESIGN CHOICE, log entry 12. -/
def readEncodeAs (v : VariantName) : List Lexeme → AsmResult AsmLine
  | [] => .ok (.encodeAs v (.bytes []))
  | ls => (readArgs ls).andThen fun args => .ok (.encodeAs v args)

/-- The variant an `ENCODE_<VARIANT>` mnemonic names (R72). -/
def encodeAsName (m : List Char) : Option VariantName :=
  (variantNames.find? fun p => "ENCODE_".toList ++ p.1.toList == m).map (·.2)

/-- A mnemonic and its operands (R69, R72). -/
def readCommand (m : List Char) (args : List Lexeme) : AsmResult AsmLine :=
  if m == "BYTE".toList then
    match args with
    | [x] => (readImm8 x).andThen fun n => .ok (.byte n)
    | _ => .error .form
  else if m == "START".toList then readOneVariant .start args
  else if m == "STARTN".toList then readOneVariant .startn args
  else if m == "END".toList then
    match args with
    | [] => .ok .endFrame
    | _ => .error .form
  else if m == ".word".toList then
    match args with
    | [.word cs] =>
      match readNumber cs with
      | some n => .ok (.word n)
      | none => .error .form
    | _ => .error .form
  else if m == "ENCODE".toList then readEncode args
  else if m == "ENCODE_NULL".toList then readOneVariant .encodeNull args
  else
    match encodeAsName m with
    | some v => readEncodeAs v args
    | none => .error .form

/-- One line of source; an empty line, or one with only a comment, is no command (R69). -/
def readLine (cs : List Char) : AsmResult (List AsmLine) :=
  (lexLine cs).andThen fun
    | [] => .ok []
    | .word m :: args => (readCommand m args).andThen fun l => .ok [l]
    | _ => .error .form

/-- The words of one line of source (R69). -/
def assembleText (line : String) : AsmResult (List CmdWord) := (readLine line.toList).andThen assembleLines

/-- The words of a source, line by line (R69). One refused line refuses the whole source, and the first such line's reason is
the answer: R71 says what becomes of the line, not of the others. DESIGN CHOICE, log entry 11. -/
def assembleSource : List String → AsmResult (List CmdWord)
  | [] => .ok []
  | l :: ls => (assembleText l).andThen fun ws => (assembleSource ls).andThen fun rest => .ok (ws ++ rest)

end Sys2Proof.Machine
end

