-- ==== Sys2Proof/Machine/Transaction.lean ====
section
/-! DEFINITION. The transaction level of 00_scope.md R9: a command and the tokens it gives, with a consumer that takes them all
before the next command; and a frame as a list of commands (R5). -/

namespace Sys2Proof.Machine

/-- One command at the transaction level: perform it, then the consumer takes its tokens. The command's token list is what
`delivered` gains (R9). -/
def transact (w : CmdWord) (s : State) : Host.Outcome State Fault Refusal := onNext takeAll (perform w s)

/-- Command words one after another, in order (R47). -/
def runWords : List CmdWord → State → Host.Outcome State Fault Refusal
  | [], s => .next s
  | w :: ws, s =>
    match transact w s with
    | .next t => runWords ws t
    | .fault r => .fault r
    | .refused r => .refused r

/-- START and the BYTE commands of a frame, in sequence order (R5, R42). -/
def openWords (vsel : Vsel) (bytes : List Byte) : List CmdWord :=
  encode (.start vsel) :: bytes.map (fun b => encode (.byte b))

/-- A whole frame: START, one BYTE for each byte, END (R5). -/
def frameWords (vsel : Vsel) (bytes : List Byte) : List CmdWord := openWords vsel bytes ++ [encode .endFrame]

/-- Rising edges of `clk`, one after another, as many as asked for. -/
def runEdges : Nat → State → Host.Outcome State Fault Refusal
  | 0, s => .next s
  | n + 1, s =>
    match clockEdge s with
    | .next t => runEdges n t
    | .fault r => .fault r
    | .refused r => .refused r

end Sys2Proof.Machine
end

