-- ==== Sys2Proof/Machine/Reference.lean ====
section
/-! DEFINITION. What a frame's tokens are compared with in claims, written without the block's registers: the bit string of
20_memory.md R43 and its 5-bit groups, and QYC's algorithm on an unmasked buffer as 41_byte.md R90, R92 and 42_frame_close.md
R100 quote it. -/

namespace Sys2Proof.Machine

/-- The bits of a byte, bit 7 first (R43). -/
def byteBits (b : Byte) : List Bool := [7, 6, 5, 4, 3, 2, 1, 0].map b.getLsbD

/-- The frame's input as one bit string `S = {b[0], b[1], ...}` (R43). -/
def frameBits (bytes : List Byte) : List Bool := bytes.flatMap byteBits

/-- A list of bits read as a number, the first bit the most significant (R43). -/
def bitsValue (bits : List Bool) : Nat := bits.foldl (fun n b => 2 * n + b.toNat) 0

/-- The consecutive whole 5-bit groups of a bit string, as indices, from the first bit (R43). -/
def wholeGroups : List Bool → List Idx
  | b4 :: b3 :: b2 :: b1 :: b0 :: rest => BitVec.ofNat 5 (bitsValue [b4, b3, b2, b1, b0]) :: wholeGroups rest
  | _ => []

/-- What the whole groups leave over: 0 to 4 bits. -/
def leftBits : List Bool → List Bool
  | _ :: _ :: _ :: _ :: _ :: rest => leftBits rest
  | rest => rest

/-- The last, partial group: its bits in the high places, zeros below; none when nothing is left over (R43). -/
def lastGroup (bits : List Bool) : List Idx :=
  match leftBits bits with
  | [] => []
  | left => [BitVec.ofNat 5 (bitsValue (left ++ List.replicate (5 - left.length) false))]

/-- All the indices of a frame, whole groups and last group (R43). -/
def frameIndices (bytes : List Byte) : List Idx := wholeGroups (frameBits bytes) ++ lastGroup (frameBits bytes)

/-- The SYM token of an index under a variant (R66). -/
def symToken (rom : Rom) (vsel : Vsel) (idx : Idx) : Token := ⟨.sym, romRead rom vsel idx⟩

/-- The PAD token and the EOF token (R66). -/
def padToken : Token := ⟨.pad, padChar⟩

@[inherit_doc padToken]
def eofToken : Token := ⟨.eof, 0x00⟩

/-- PAD tokens "until its length is a multiple of 8" (R100). -/
def padTokens (symbols : Nat) : List Token := List.replicate ((8 - symbols % 8) % 8) padToken

/-- The tokens of a whole frame: symbols, padding, EOF (R43, R103). -/
def frameTokens (rom : Rom) (vsel : Vsel) (bytes : List Byte) : List Token :=
  (frameIndices bytes).map (symToken rom vsel) ++ padTokens (frameIndices bytes).length ++ [eofToken]

/-- The encoded string of a token list: the characters of its SYM and PAD tokens, in order (R103). -/
def encodedString (tokens : List Token) : List Byte :=
  (tokens.filter (fun t => t.kind = .sym ∨ t.kind = .pad)).map (fun t => t.data)

/-- QYC's two variables: `buffer`, never masked, and `bitsLeft`; and the indices appended so far (R90, R92). -/
structure Qyc where
  buffer : Nat
  bitsLeft : Nat
  indices : List Nat
  deriving DecidableEq, Repr

/-- QYC step 1: "Initialize `buffer = 0` ..., `bitsLeft = 0`, output = empty" (R80). -/
def qycStart : Qyc := ⟨0, 0, []⟩

/-- QYC step 2b, "While `bitsLeft >= 5`: decrement `bitsLeft` by 5; extract the top 5 of the currently meaningful bits"
(R90); the first argument bounds the rounds. -/
def qycDrain : Nat → Qyc → Qyc
  | 0, q => q
  | n + 1, q =>
    if 5 ≤ q.bitsLeft then
      qycDrain n
        { q with bitsLeft := q.bitsLeft - 5, indices := q.indices ++ [(q.buffer >>> (q.bitsLeft - 5)) &&& 0x1F] }
    else q

/-- QYC step 2: "`buffer = (buffer << 8) | b`", "`bitsLeft += 8`", then the drain (R90). -/
def qycByte (q : Qyc) (b : Byte) : Qyc :=
  qycDrain (q.bitsLeft + 8) { q with buffer := (q.buffer <<< 8) ||| b.toNat, bitsLeft := q.bitsLeft + 8 }

/-- QYC step 3: "if `bitsLeft > 0` ..., `(buffer << (5 - bitsLeft)) & 0x1F`" (R100). -/
def qycFlush (q : Qyc) : Qyc :=
  if 0 < q.bitsLeft then { q with indices := q.indices ++ [(q.buffer <<< (5 - q.bitsLeft)) &&& 0x1F] } else q

/-- QYC's `encode(alphabet, bytes)`: steps 1 to 4 (R90, R100), as characters. -/
def qycEncode (rom : Rom) (vsel : Vsel) (bytes : List Byte) : List Byte :=
  let q := qycFlush (bytes.foldl qycByte qycStart)
  let chars := q.indices.map (fun n => romRead rom vsel (BitVec.ofNat 5 n))
  chars ++ List.replicate ((8 - chars.length % 8) % 8) padChar

end Sys2Proof.Machine
end

