-- ==== Sys2Proof/Safety.lean ====
section
/-! DEFINITION. What counts as a safe run, in the terms the claims use: the observed token stream (20_memory.md R47), the fault
record of 60_exceptions.md R129, and the invariant every edge keeps (10_state.md R26 to R28, 30_encoding.md R67,
70_reset_and_hazards.md R147). -/

namespace Sys2Proof.Machine

/-- The observation: every token emitted since the last reset, delivered or still buffered, in order (R9, R47). -/
def State.stream (s : State) : List Token := s.delivered ++ s.tokenBuf

/-- No ERR token in the stream: the premise R129 asks a claim about a run to take. -/
abbrev State.NoErr (s : State) : Prop := ∀ t ∈ s.stream, t.kind ≠ .err

/-- `rst` is 0 at the next edge and at every later one. -/
def State.NoReset (s : State) : Prop := s.rst = false ∧ ∀ e ∈ s.edges, e.rst = false

/-- "The consumer eventually accepts every offered token", the fairness assumption of R149: whenever a token is offered, after
some number of edges `out_ready` is 1, or a reset discards the token (R140). A claim that a run ends takes it as a premise.
DEDUCED, log entry 18. -/
def State.FairConsumer (s : State) : Prop :=
  ∀ (n : Nat) (t : State), runEdges n s = .next t → t.outValid = true →
    ∃ (m : Nat) (u : State), runEdges m t = .next u ∧ (u.outReady = true ∨ u.rst = true)

/-- The pairs (CNT, NSYM) a frame passes through, by the number of its bytes modulo 5 (R28, R101). -/
def framePairs : List (Cnt × Nsym) := [(0, 0), (3, 1), (1, 3), (4, 4), (2, 6)]

/-- The registers, the ROM, the buffer and the stream stay as the spec says they do. -/
structure Inv (s : State) : Prop where
  /-- R26 and R28: CNT and NSYM are those of some number of bytes; so CNT is at most 4. -/
  counts : (s.cnt, s.nsym) ∈ framePairs
  /-- R27: with no frame open the accumulator is clear. -/
  idle : s.fopen = false → s.acc = 0 ∧ s.cnt = 0 ∧ s.nsym = 0
  /-- R30: the ROM is the one of R29. -/
  rom : s.rom = Config.hw.rom
  /-- R147: the buffer never overflows. -/
  buffer : s.tokenBuf.length ≤ 8
  /-- R67: no other token word is ever emitted. -/
  tokens : ∀ t ∈ s.stream, t.wf = true

end Sys2Proof.Machine
end

