-- ==== Sys2Proof/Certificates/Slice0/Obligations.lean ====
section
/-! DEFINITION. The statements for the provers, each a `Prop`; each names the rule of the spec it is about. -/

open Sys2Proof Sys2Proof.Machine

/-! ### Encoding (30_encoding.md) -/

/-- Every command's word decodes to the command, with every operand at every value (R60 to R65). -/
def Obligations.DecodeInvertsEncode : Prop :=
  ∀ i : Instr, decode (encode i) = .command i

/-- Every legal word is the one word of its command: no two words mean one command, and no bit is dropped (R63, R64). -/
def Obligations.EncodeInvertsDecode : Prop :=
  ∀ (w : CmdWord) (i : Instr), decode w = .command i → encode i = w

/-- R65: `Decode(w)` on all 2048 words, with `op = w[10:8]`, `d = w[7:0]`, `d[7:3]` and `d[2:0]` as numbers. -/
def Obligations.DecodeFollowsItsPseudocode : Prop :=
  ∀ w : CmdWord,
    let op := w.toNat / 256
    let d := w.toNat % 256
    (op = 0 → decode w = .command (.byte (BitVec.ofNat 8 d))) ∧
    (op = 1 → d / 8 = 0 → decode w = .command (.start (BitVec.ofNat 3 d))) ∧
    (op = 2 → d / 8 = 0 → decode w = .command (.startn (BitVec.ofNat 3 d))) ∧
    (op = 3 → d = 0 → decode w = .command .endFrame) ∧
    ((op = 1 ∨ op = 2) → d / 8 ≠ 0 → ∃ why, decode w = .reserved why) ∧
    (op = 3 → d ≠ 0 → ∃ why, decode w = .reserved why) ∧
    (4 ≤ op → ∃ why, decode w = .reserved why)

/-- The opcode map of R63: a word is the command of a row exactly when `(w & mask) = match`; a reserved opcode is the row
`0x400 / 0x400`; no word is of two rows; and the legal words are 256, 8, 8 and 1 (a count the spec marks as derived). -/
def Obligations.OpcodeMapIsExact : Prop :=
  (∀ w : CmdWord,
    ((∃ b, decode w = .command (.byte b)) ↔ w &&& 0x700#11 = 0x000#11) ∧
    ((∃ v, decode w = .command (.start v)) ↔ w &&& 0x7F8#11 = 0x100#11) ∧
    ((∃ v, decode w = .command (.startn v)) ↔ w &&& 0x7F8#11 = 0x200#11) ∧
    (decode w = .command .endFrame ↔ w &&& 0x7FF#11 = 0x300#11) ∧
    (decode w = .reserved .opcode ↔ w &&& 0x400#11 = 0x400#11)) ∧
  opcodeMap.Pairwise (fun r r' => ∀ w, r.holds w = true → r'.holds w = false) ∧
  opcodeMap.map (fun r => ((List.range 2048).filter (fun n => r.holds (BitVec.ofNat 11 n))).length) =
    [256, 8, 8, 1, 1024]

/-- Words of 95_test_vectors.md section 2.1, decoded. -/
def Obligations.ListedWordsDecode : Prop :=
  decode 0x000#11 = .command (.byte 0x00) ∧ decode 0x0FF#11 = .command (.byte 0xFF) ∧
  decode 0x100#11 = .command (.start 0) ∧ decode 0x107#11 = .command (.start 7) ∧
  decode 0x200#11 = .command (.startn 0) ∧ decode 0x207#11 = .command (.startn 7) ∧
  decode 0x300#11 = .command .endFrame ∧
  [0x108#11, 0x1FF#11, 0x208#11, 0x301#11, 0x3FF#11].all (fun w => decode w = .reserved .nonzeroBits) = true ∧
  [0x400#11, 0x7FF#11].all (fun w => decode w = .reserved .opcode) = true

/-- The token words of R66: KIND in bits 9:8, DATA in bits 7:0. -/
def Obligations.TokenWordsAreLaidOut : Prop :=
  (∀ c : Byte, (Token.mk .sym c).word.toNat = c.toNat) ∧ padToken.word = 0x13D#10 ∧ eofToken.word = 0x200#10 ∧
  (∀ e : ErrCode, e.token.word.toNat = 0x300 + e.code.toNat) ∧
  (∀ t u : Token, t.word = u.word → t = u)

/-! ### The alphabet ROM (10_state.md R29 to R32) -/

/-- The ROM's tables, index by index, are the strings of R29 under each VSEL value of R24, as ASCII codes (the codes are from
general knowledge, as the spec marks them; log entry 14). -/
def Obligations.RomHoldsTheAlphabets : Prop :=
  let table (v : Vsel) : List Nat :=
    (List.range 32).map (fun n => (romRead Config.hw.rom v (BitVec.ofNat 5 n)).toNat)
  let codes (text : String) : List Nat := text.toList.map Char.toNat
  table 0 = codes "ABCDEFGHIJKLMNOPQRSTUVWXYZ234567" ∧
  table 1 = codes "0123456789ABCDEFGHIJKLMNOPQRSTUV" ∧
  table 2 = codes "ybndrfg8ejkmcpqxot1uwisza345h768" ∧
  table 3 = codes "0123456789abcdefghjkmnpqrstvwxyz" ∧
  table 4 = table 0 ∧
  table 5 = codes "0123456789bcdefghjkmnpqrstuvwxyz" ∧
  table 6 = codes "abcdefghijklmnopqrstuvwxyz234567" ∧
  table 7 = table 0

/-- Under every variant but ZBase32 two indices never share a character; ZBase32 has `8` at 7 and at 31, and no other
pair (R31, an inspection the spec marks as derived). -/
def Obligations.OnlyZBase32HasADuplicate : Prop :=
  ∀ (v : Vsel) (i j : Idx), romRead Config.hw.rom v i = romRead Config.hw.rom v j → i ≠ j →
    v = 2 ∧ ((i = 7 ∧ j = 31) ∨ (i = 31 ∧ j = 7)) ∧ romRead Config.hw.rom v i = 0x38

/-- R30: no command, port or reset writes the ROM. -/
def Obligations.RomIsNeverWritten : Prop :=
  ∀ s t : State, step s = .next t → t.rom = s.rom

/-! ### START and STARTN (40_frame_open.md) -/

/-- R80: START opens a frame, emits nothing, and writes FOPEN, VSEL, ACC, CNT and NSYM and nothing else. With a frame open
it is FRAME_OPEN; with a reserved bit set the word is RESERVED; variants 4 and 7 give the tokens of 0. -/
def Obligations.StartFollowsItsRule : Prop :=
  (∀ vsel : Vsel, encode (.start vsel) = 0b001#3 ++ 0b00000#5 ++ vsel) ∧
  (∀ w : CmdWord, (∃ v, decode w = .command (.start v)) ↔ w &&& 0x7F8#11 = 0x100#11) ∧
  (∀ (vsel : Vsel) (s : State), s.fopen = false →
    exec (.start vsel) s = .next { s with fopen := true, vsel := vsel, acc := 0x000, cnt := 0, nsym := 0 }) ∧
  (∀ (vsel : Vsel) (s : State), s.fopen = true →
    exec (.start vsel) s = .next { s with tokenBuf := s.tokenBuf ++ [⟨.err, 0x03⟩] }) ∧
  (∀ (w : CmdWord) (s : State), w.toNat / 256 = 1 → w.toNat % 256 / 8 ≠ 0 →
    perform w s = .next { s with tokenBuf := s.tokenBuf ++ [⟨.err, 0x04⟩] }) ∧
  (∀ (v : Vsel) (bytes : List Byte) (s : State), s.fopen = false → s.tokenBuf = [] → v = 4 ∨ v = 7 →
    ∃ t u, runWords (frameWords v bytes) s = .next t ∧ runWords (frameWords 0 bytes) s = .next u ∧
      t.delivered = u.delivered)

/-- R81, R122: STARTN always fails and changes no register: NULL_INPUT with no frame open, FRAME_OPEN with one, RESERVED with a
reserved bit set; and the next START runs as if STARTN had not been. -/
def Obligations.StartnFollowsItsRule : Prop :=
  (∀ vsel : Vsel, encode (.startn vsel) = 0b010#3 ++ 0b00000#5 ++ vsel) ∧
  (∀ w : CmdWord, (∃ v, decode w = .command (.startn v)) ↔ w &&& 0x7F8#11 = 0x200#11) ∧
  (∀ (vsel : Vsel) (s : State), s.fopen = false →
    exec (.startn vsel) s = .next { s with tokenBuf := s.tokenBuf ++ [⟨.err, 0x01⟩] }) ∧
  (∀ (vsel : Vsel) (s : State), s.fopen = true →
    exec (.startn vsel) s = .next { s with tokenBuf := s.tokenBuf ++ [⟨.err, 0x03⟩] }) ∧
  (∀ (w : CmdWord) (s : State), w.toNat / 256 = 2 → w.toNat % 256 / 8 ≠ 0 →
    perform w s = .next { s with tokenBuf := s.tokenBuf ++ [⟨.err, 0x04⟩] }) ∧
  (∀ (vsel v : Vsel) (s : State), s.fopen = false →
    runWords [encode (.startn vsel), encode (.start v)] s =
      .next { takeAll s with
        delivered := s.delivered ++ s.tokenBuf ++ [⟨.err, 0x01⟩]
        fopen := true, vsel := v, acc := 0x000, cnt := 0, nsym := 0 })

/-- R82 (which the spec marks as derived): an empty input gives exactly one token, EOF, and an empty string; an absent
input gives exactly one token, ERR 0x01. -/
def Obligations.AbsentIsNotEmpty : Prop :=
  ∀ (v : Vsel) (s : State), s.fopen = false → s.tokenBuf = [] →
    (∃ t, runWords [encode (.start v), encode .endFrame] s = .next t ∧ t.delivered = s.delivered ++ [eofToken]) ∧
    (∃ t, runWords [encode (.startn v)] s = .next t ∧ t.delivered = s.delivered ++ [⟨.err, 0x01⟩] ∧
      t.fopen = false ∧ t.vsel = s.vsel) ∧
    encodedString [eofToken] = []

/-! ### BYTE (41_byte.md) -/

/-- R90, on every value of CNT (so R94 too): with `a = {ACC[3:0], b}` and `c = CNT + 8`, BYTE emits `c / 5` symbols, the
`j`-th with index `(a >> (c - 5 (j + 1))) & 0x1F`, and writes ACC, CNT and NSYM and nothing else; one or two symbols for a
CNT of 0 to 4. With no frame open it is NO_FRAME. -/
def Obligations.ByteFollowsItsRule : Prop :=
  (∀ b : Byte, encode (.byte b) = 0b000#3 ++ b) ∧
  (∀ w : CmdWord, (∃ b, decode w = .command (.byte b)) ↔ w &&& 0x700#11 = 0x000#11) ∧
  (∀ (b : Byte) (s : State), s.fopen = true →
    let a := (s.acc.toNat * 256 + b.toNat) % 4096
    let c := s.cnt.toNat + 8
    exec (.byte b) s = .next { s with
      acc := BitVec.ofNat 12 a
      cnt := BitVec.ofNat 4 (c % 5)
      nsym := BitVec.ofNat 3 ((s.nsym.toNat + c / 5) % 8)
      tokenBuf := s.tokenBuf ++
        (List.range (c / 5)).map
          (fun j => ⟨.sym, romRead s.rom s.vsel (BitVec.ofNat 5 (a / 2 ^ (c - 5 * (j + 1)) % 32))⟩) } ∧
    (s.cnt.toNat ≤ 4 → c / 5 = 1 ∨ c / 5 = 2)) ∧
  (∀ (b : Byte) (s : State), s.fopen = false →
    exec (.byte b) s = .next { s with tokenBuf := s.tokenBuf ++ [⟨.err, 0x02⟩] })

/-- The table of R91 (which the spec marks as derived), row by row: the indices as bits of ACC and `b`, CNT after, and NSYM's
change. -/
def Obligations.ByteTableByCount : Prop :=
  ∀ (b : Byte) (s : State), s.fopen = true → s.cnt.toNat ≤ 4 →
    ∃ t, exec (.byte b) s = .next t ∧ t.acc = s.acc.extractLsb' 0 4 ++ b ∧ t.fopen = true ∧ t.vsel = s.vsel ∧
      (s.cnt = 0 → t.cnt = 3 ∧ t.nsym = s.nsym + 1 ∧
        t.tokenBuf = s.tokenBuf ++ [symToken s.rom s.vsel (b.extractLsb' 3 5)]) ∧
      (s.cnt = 1 → t.cnt = 4 ∧ t.nsym = s.nsym + 1 ∧
        t.tokenBuf = s.tokenBuf ++ [symToken s.rom s.vsel (s.acc.extractLsb' 0 1 ++ b.extractLsb' 4 4)]) ∧
      (s.cnt = 2 → t.cnt = 0 ∧ t.nsym = s.nsym + 2 ∧
        t.tokenBuf = s.tokenBuf ++ [symToken s.rom s.vsel (s.acc.extractLsb' 0 2 ++ b.extractLsb' 5 3),
          symToken s.rom s.vsel (b.extractLsb' 0 5)]) ∧
      (s.cnt = 3 → t.cnt = 1 ∧ t.nsym = s.nsym + 2 ∧
        t.tokenBuf = s.tokenBuf ++ [symToken s.rom s.vsel (s.acc.extractLsb' 0 3 ++ b.extractLsb' 6 2),
          symToken s.rom s.vsel (b.extractLsb' 1 5)]) ∧
      (s.cnt = 4 → t.cnt = 2 ∧ t.nsym = s.nsym + 2 ∧
        t.tokenBuf = s.tokenBuf ++ [symToken s.rom s.vsel (s.acc.extractLsb' 0 4 ++ b.extractLsb' 7 1),
          symToken s.rom s.vsel (b.extractLsb' 2 5)])

/-! ### END (42_frame_close.md) -/

/-- R100, for a CNT of 0 to 4, the values its pseudocode speaks of: the last CNT bits of ACC over zeros as a final symbol
when CNT > 0, PAD to a multiple of 8, EOF, and FOPEN, ACC, CNT and NSYM cleared; VSEL and everything else unchanged. With no
frame open it is NO_FRAME; with DATA not zero the word is RESERVED. -/
def Obligations.EndFollowsItsRule : Prop :=
  encode .endFrame = 0x300#11 ∧ (∀ w : CmdWord, decode w = .command .endFrame ↔ w &&& 0x7FF#11 = 0x300#11) ∧
  (∀ s : State, s.fopen = true → s.cnt.toNat ≤ 4 →
    let final : List Token :=
      if s.cnt = 0 then []
      else [⟨.sym, romRead s.rom s.vsel
        (BitVec.ofNat 5 (s.acc.toNat % 2 ^ s.cnt.toNat * 2 ^ (5 - s.cnt.toNat)))⟩]
    let n := s.nsym.toNat + final.length
    exec .endFrame s = .next { s with
      fopen := false, acc := 0x000, cnt := 0, nsym := 0
      tokenBuf := s.tokenBuf ++ final ++ List.replicate ((8 - n % 8) % 8) ⟨.pad, 0x3D⟩ ++ [⟨.eof, 0x00⟩] }) ∧
  (∀ s : State, s.fopen = false → exec .endFrame s = .next { s with tokenBuf := s.tokenBuf ++ [⟨.err, 0x02⟩] }) ∧
  (∀ (w : CmdWord) (s : State), w.toNat / 256 = 3 → w.toNat % 256 ≠ 0 →
    perform w s = .next { s with tokenBuf := s.tokenBuf ++ [⟨.err, 0x04⟩] })

/-- END on a CNT of 5 to 15, where no run gets: the MODEL's reading of R100 with the arithmetic of R7, log entry 9. The
final symbol has index `ACC[4:0]` at CNT 5 and 0 above it; the rest is as R100 says. -/
def Obligations.EndOnUnreachedCounts : Prop :=
  ∀ s : State, s.fopen = true → 5 ≤ s.cnt.toNat →
    ∃ idx : Idx, (s.cnt.toNat = 5 → idx = s.acc.extractLsb' 0 5) ∧ (6 ≤ s.cnt.toNat → idx = 0) ∧
      exec .endFrame s = .next { s with
        fopen := false, acc := 0x000, cnt := 0, nsym := 0
        tokenBuf := s.tokenBuf ++ [symToken s.rom s.vsel idx] ++
          List.replicate ((8 - (s.nsym.toNat + 1) % 8) % 8) padToken ++ [eofToken] }

/-- The table of R101 (which the spec marks as derived): what END finds and emits after `n` bytes, by `n` modulo 5, and the
length of the whole string. -/
def Obligations.EndTableByRemainder : Prop :=
  ∀ (v : Vsel) (bytes : List Byte) (s : State), s.fopen = false → s.tokenBuf = [] →
    ∃ (t u : State) (final : List Token) (pads : Nat), runWords (openWords v bytes) s = .next t ∧ transact (encode .endFrame) t = .next u ∧
      u.delivered = t.delivered ++ final ++ List.replicate pads padToken ++ [eofToken] ∧
      (∀ x ∈ final, x.kind = .sym) ∧
      [(0, 0, 0, 0), (3, 1, 1, 6), (1, 3, 1, 4), (4, 4, 1, 3), (2, 6, 1, 1)][bytes.length % 5]? =
        some (t.cnt.toNat, t.nsym.toNat, final.length, pads) ∧
      (encodedString (u.delivered.drop s.delivered.length)).length = 8 * ((bytes.length + 4) / 5)

/-! ### Errors (60_exceptions.md) -/

/-- R120: a command that emits an ERR token emits exactly that one token and changes no register; and it is consumed from
the command port like any other. -/
def Obligations.ErrorsArePrecise : Prop :=
  (∀ (w : CmdWord) (s t : State) (toks : List Token), perform w s = .next t → t.tokenBuf = s.tokenBuf ++ toks →
    (∃ x ∈ toks, x.kind = .err) →
    ∃ e : ErrCode, toks = [e.token] ∧ t = { s with tokenBuf := s.tokenBuf ++ [e.token] }) ∧
  (∀ (w : CmdWord) (ws : List CmdWord) (s : State), s.rst = false → s.tokenBuf = [] → s.cmdQueue = w :: ws →
    ∃ t, step s = .next t ∧ t.cmdQueue = ws)

/-- R123: NO_FRAME (0x02) is raised by BYTE and by END when FOPEN = 0, and the byte is dropped. -/
def Obligations.ByteOrEndInIdleIsNoFrame : Prop :=
  ∀ (b : Byte) (s : State), s.fopen = false →
    exec (.byte b) s = .next { s with tokenBuf := s.tokenBuf ++ [⟨.err, 0x02⟩] } ∧
    exec .endFrame s = .next { s with tokenBuf := s.tokenBuf ++ [⟨.err, 0x02⟩] }

/-- R124: FRAME_OPEN (0x03) is raised by START and by STARTN when FOPEN = 1; the open frame continues unchanged, and a later
END closes it with the tokens and the registers it would have had. -/
def Obligations.StartInAFrameIsFrameOpen : Prop :=
  ∀ (vsel : Vsel) (s : State), s.fopen = true →
    let t : State := { s with tokenBuf := s.tokenBuf ++ [⟨.err, 0x03⟩] }
    exec (.start vsel) s = .next t ∧ exec (.startn vsel) s = .next t ∧
    ∃ u toks, exec .endFrame s = .next u ∧ u.fopen = false ∧ u.tokenBuf = s.tokenBuf ++ toks ∧
      exec .endFrame t = .next { u with tokenBuf := t.tokenBuf ++ toks }

/-- R125: RESERVED (0x04) is raised by every reserved word, in either state of FOPEN, and changes no state. -/
def Obligations.ReservedWordsChangeNothing : Prop :=
  ∀ (w : CmdWord) (s : State), (∃ why, decode w = .reserved why) →
    perform w s = .next { s with tokenBuf := s.tokenBuf ++ [⟨.err, 0x04⟩] }

/-- R126: every command word raises at most one error, and which one is decided in the order RESERVED, then the frame-state
check, then NULL_INPUT; no other condition is an error (R127). -/
def Obligations.ErrorPriority : Prop :=
  ∀ (w : CmdWord) (s : State), ∃ t toks, perform w s = .next t ∧ t.tokenBuf = s.tokenBuf ++ toks ∧
    toks.filter (fun x => x.kind = .err) =
      match decode w, s.fopen with
      | .reserved _, _ => [⟨.err, 0x04⟩]
      | .command (.byte _), false => [⟨.err, 0x02⟩]
      | .command .endFrame, false => [⟨.err, 0x02⟩]
      | .command (.start _), true => [⟨.err, 0x03⟩]
      | .command (.startn _), true => [⟨.err, 0x03⟩]
      | .command (.startn _), false => [⟨.err, 0x01⟩]
      | .command (.byte _), true => []
      | .command .endFrame, true => []
      | .command (.start _), false => []

/-- R128, R103: an erroneous command inside a frame leaves the frame's string, and the state after it, as they would be
without it. -/
def Obligations.ErrorsDoNotDisturbAFrame : Prop :=
  ∀ (v : Vsel) (before after : List Byte) (w : CmdWord) (s : State), s.fopen = false → s.tokenBuf = [] →
    ((∃ why, decode w = .reserved why) ∨ (∃ x, decode w = .command (.start x)) ∨
      (∃ x, decode w = .command (.startn x))) →
    ∃ t u toks e, runWords (frameWords v (before ++ after)) s = .next t ∧
      runWords (openWords v before ++ [w] ++ (after.map (fun b => encode (.byte b)) ++ [encode .endFrame])) s =
        .next u ∧
      t.delivered = s.delivered ++ toks ∧
      e.kind = .err ∧ (u.delivered.drop s.delivered.length).filter (fun x => x.kind ≠ .err) = toks ∧
      encodedString (u.delivered.drop s.delivered.length) = encodedString toks ∧
      u = { t with delivered := u.delivered } ∧ u.delivered.length = t.delivered.length + 1 ∧ e ∈ u.delivered

/-! ### What a command leaves alone, and what every step does -/

/-- Frame of all four commands: the ROM, the ports, the producer's words, the schedule and the consumer's record are
unchanged; the tokens already buffered stay, in order, ahead of the command's own; VSEL is written by a START that opens
a frame only (R24), and FOPEN by that START and by END only (R25); the port `frame_open` shows the new FOPEN (R145). -/
def Obligations.CommandsLeaveTheRestAlone : Prop :=
  ∀ (i : Instr) (s : State), ∃ t toks, exec i s = .next t ∧ t.tokenBuf = s.tokenBuf ++ toks ∧ t.rom = s.rom ∧
    t.rst = s.rst ∧ t.outReady = s.outReady ∧ t.cmdQueue = s.cmdQueue ∧ t.edges = s.edges ∧
    t.delivered = s.delivered ∧ t.deliveredBefore = s.deliveredBefore ∧ t.frameOpen = t.fopen ∧
    t.vsel = (match i with
      | .start v => if s.fopen then s.vsel else v
      | .byte _ => s.vsel
      | .startn _ => s.vsel
      | .endFrame => s.vsel) ∧
    t.fopen = (match i with
      | .start _ => true
      | .endFrame => false
      | .byte _ => s.fopen
      | .startn _ => s.fopen)

/-- How many tokens a command gives (R147, a list the spec marks as derived), on the states the invariant allows: at most 8,
and START 0, STARTN 1, BYTE 1 or 2, END 1 to 8. -/
def Obligations.TokensPerCommand : Prop :=
  ∀ (i : Instr) (s : State), Inv s → ∃ t toks, exec i s = .next t ∧ t.tokenBuf = s.tokenBuf ++ toks ∧
    toks.length ≤ 8 ∧
    (match i with
      | .start _ => if s.fopen then toks.length = 1 else toks = []
      | .startn _ => toks.length = 1
      | .byte _ => toks.length = 1 ∨ toks.length = 2
      | .endFrame => 1 ≤ toks.length)

/-- Every SYM token a command emits carries a character of the frame's own variant, and every other token is PAD 0x3D,
EOF 0x00 or ERR 0x01 to 0x04 (R67, which the spec marks as derived). -/
def Obligations.TokensOfACommandAreLegal : Prop :=
  ∀ (w : CmdWord) (s t : State) (toks : List Token), perform w s = .next t → t.tokenBuf = s.tokenBuf ++ toks →
    ∀ x ∈ toks, (∃ idx, x = symToken s.rom s.vsel idx) ∨ x = padToken ∨ x = eofToken ∨ ∃ e : ErrCode, x = e.token

/-- Every rising edge answers a next state: nothing stops the block (R127, R128). -/
def Obligations.EveryEdgeAnswersANextState : Prop :=
  ∀ s : State, ∃ t, step s = .next t

/-- A step runs the decoded command: with `rst` 0, the buffer empty and a word offered, the edge takes the word and is `exec`
of the command it decodes to, or the RESERVED error; then the levels of the next edge (R144). -/
def Obligations.StepRunsTheOfferedCommand : Prop :=
  ∀ (w : CmdWord) (ws : List CmdWord) (s : State), s.rst = false → s.tokenBuf = [] → s.cmdQueue = w :: ws →
    (∀ i, decode w = .command i → step s = onNext advancePins (exec i { s with cmdQueue := ws })) ∧
    (∀ why, decode w = .reserved why →
      step s = .next (advancePins { s with cmdQueue := ws, tokenBuf := [⟨.err, 0x04⟩] }))

/-- A word put by `withFetchWord` is the one the very next step runs (the model's own convention, log entry 4). -/
def Obligations.FetchWordRunsNext : Prop :=
  ∀ (nbits w : Nat) (i : Instr) (s : State), decodeTableWord nbits w = some i →
    step (s.withFetchWord nbits w) = onNext advancePins (exec i { takeAll s with rst := false })

/-! ### Reset and the ports (70_reset_and_hazards.md) -/

/-- R38: the registers, the buffer and the ROM after reset. -/
def Obligations.ResetValues : Prop :=
  State.reset.fopen = false ∧ State.reset.vsel = 0 ∧ State.reset.acc = 0x000 ∧ State.reset.cnt = 0 ∧
  State.reset.nsym = 0 ∧ State.reset.tokenBuf = [] ∧ State.reset.rom = Config.hw.rom

/-- R140: at an edge with `rst` = 1 the registers take their reset values, the buffered tokens are discarded and not
delivered, no command is accepted, `cmd_ready` and `out_valid` are 0, and the ROM is unaffected; the consumer keeps what it
had (the record is the model's own, log entry 7). -/
def Obligations.ResetEdge : Prop :=
  ∀ s : State, s.rst = true → s.cmdReady = false ∧ s.outValid = false ∧
    ∃ t, step s = .next t ∧
      t.fopen = State.reset.fopen ∧ t.vsel = State.reset.vsel ∧ t.acc = State.reset.acc ∧ t.cnt = State.reset.cnt ∧
      t.nsym = State.reset.nsym ∧ t.tokenBuf = [] ∧ t.rom = s.rom ∧ t.cmdQueue = s.cmdQueue ∧
      t.deliveredBefore ++ t.delivered = s.deliveredBefore ++ s.delivered

/-- R146: with `rst` = 0, `out_valid` is 1 exactly when the buffer is not empty, `out_token` is then the oldest token, and it
transfers exactly when `out_ready` is 1; the rest of the block keeps its state, and no command is accepted. -/
def Obligations.TokensTransferOldestFirst : Prop :=
  ∀ s : State, s.rst = false →
    (s.outValid = true ↔ s.tokenBuf ≠ []) ∧
    (∀ tok rest, s.tokenBuf = tok :: rest → s.outToken = some tok.word ∧
      (s.outReady = true →
        step s = .next (advancePins { s with tokenBuf := rest, delivered := s.delivered ++ [tok] })) ∧
      (s.outReady = false → step s = .next (advancePins s)))

/-- R147: `cmd_ready` is 1 exactly when `rst` = 0 and the buffer is empty; and exactly then does an offered word leave the
producer. -/
def Obligations.CommandReadyWhenDrained : Prop :=
  ∀ s : State, (s.cmdReady = true ↔ s.rst = false ∧ s.tokenBuf = []) ∧
    ∀ (t : State) (w : CmdWord) (ws : List CmdWord), s.cmdQueue = w :: ws → step s = .next t →
      t.cmdQueue = (if s.cmdReady then ws else w :: ws)

/-- An edge with nothing to do keeps the block's state (R135: "No state is lost while idle"). -/
def Obligations.IdleEdgeKeepsTheState : Prop :=
  ∀ s : State, s.rst = false → s.tokenBuf = [] → s.cmdQueue = [] → step s = .next (advancePins s)

/-- R149: while the consumer keeps `out_ready` at 0 with a token in the buffer, and `rst` stays 0, the block holds `cmd_ready`
at 0 and accepts nothing, however many edges pass. -/
def Obligations.ConsumerCanHang : Prop :=
  ∀ (n : Nat) (s : State), s.rst = false → s.outReady = false → s.tokenBuf ≠ [] →
    (∀ e ∈ s.edges, e.rst = false ∧ e.outReady = false) →
    ∃ t, runEdges n s = .next t ∧ t.cmdReady = false ∧ t.tokenBuf = s.tokenBuf ∧ t.cmdQueue = s.cmdQueue ∧
      t.delivered = s.delivered ∧ t.fopen = s.fopen ∧ t.acc = s.acc ∧ t.cnt = s.cnt ∧ t.nsym = s.nsym ∧
      t.vsel = s.vsel

/-- R47: with no reset, the observed stream only grows at its end, and only by the tokens of the one command an edge
accepts; a reset edge begins it anew. -/
def Obligations.StreamIsTheCommandsTokens : Prop :=
  ∀ s t : State, step s = .next t →
    (s.rst = true → t.stream = []) ∧
    (s.rst = false → ∃ toks, t.stream = s.stream ++ toks ∧
      (toks ≠ [] → ∃ w ws u, s.tokenBuf = [] ∧ s.cmdQueue = w :: ws ∧ perform w (popCommand s) = .next u ∧
        u.tokenBuf = toks))

/-- R129: once an ERR token is in the stream, no later command takes it out: with no reset it is still there after an
edge. -/
def Obligations.FaultRecordIsNeverCleared : Prop :=
  ∀ s t : State, step s = .next t → s.rst = false → t.NoErr → s.NoErr

/-- With `out_ready` held at 1, a command that gives `k` tokens takes `k + 1` edges, and leaves what the transaction level
says (R150, which the spec derives from R144, R146 and R147). -/
def Obligations.CommandTakesOneEdgeAndOnePerToken : Prop :=
  ∀ (w : CmdWord) (ws : List CmdWord) (s t : State), s.rst = false → s.outReady = true → s.edges = [] →
    s.tokenBuf = [] → s.cmdQueue = w :: ws → transact w { s with cmdQueue := ws } = .next t →
    ∃ k, t.delivered.length = s.delivered.length + k ∧ runEdges (k + 1) s = .next t

/-- The clocked block refines the transaction level of R9: with a consumer that always accepts, a queue of words runs, edge by
edge, to exactly the state and the delivered stream of running them as transactions (R47). -/
def Obligations.ClockedRunIsTheTransactionRun : Prop :=
  ∀ (ws : List CmdWord) (s : State), s.rst = false → s.outReady = true → s.edges = [] → s.tokenBuf = [] →
    s.cmdQueue = ws →
    ∃ n t, runWords ws { s with cmdQueue := [] } = .next t ∧ runEdges n s = .next t

/-! ### Invariants -/

/-- The invariant holds after reset. -/
def Obligations.ResetMeetsTheInvariant : Prop := Inv State.reset

/-- Every step keeps the invariant, from every state that meets it: CNT and NSYM belong together (so CNT is at most 4, R26),
the accumulator is clear with no frame open (R27), the ROM is R29's (R30), the buffer never overflows (R147), and no other
token is ever emitted (R67). -/
def Obligations.StepKeepsTheInvariant : Prop :=
  ∀ s t : State, Inv s → step s = .next t → Inv t

/-- R26 alone: a CNT of at most 4 stays so, from every state. -/
def Obligations.CountStaysAtMostFour : Prop :=
  ∀ s t : State, s.cnt.toNat ≤ 4 → step s = .next t → t.cnt.toNat ≤ 4

/-- R27 alone: an accumulator that is clear while no frame is open stays so. -/
def Obligations.IdleAccumulatorStaysClear : Prop :=
  ∀ s t : State, (s.fopen = false → s.acc = 0 ∧ s.cnt = 0 ∧ s.nsym = 0) → step s = .next t →
    (t.fopen = false → t.acc = 0 ∧ t.cnt = 0 ∧ t.nsym = 0)

/-! ### Frames -/

/-- R28 (which the spec derives by induction): inside a frame, after `n` bytes with bit string `S`, CNT is `8n mod 5`, NSYM is
`floor(8n / 5) mod 8`, the symbols so far are the whole 5-bit groups of `S` in order, and the low CNT bits of ACC are the last
CNT bits of `S`. -/
def Obligations.OpenFrameHoldsTheBitString : Prop :=
  ∀ (v : Vsel) (bytes : List Byte) (s : State), s.fopen = false → s.tokenBuf = [] →
    let S := frameBits bytes
    let n := bytes.length
    ∃ t, runWords (openWords v bytes) s = .next t ∧ t.fopen = true ∧ t.vsel = v ∧
      t.cnt.toNat = 8 * n % 5 ∧ t.nsym.toNat = 8 * n / 5 % 8 ∧
      t.delivered = s.delivered ++ (wholeGroups S).map (symToken s.rom v) ∧
      (wholeGroups S).length = 8 * n / 5 ∧
      t.acc.toNat % 2 ^ t.cnt.toNat = bitsValue (S.drop (S.length - t.cnt.toNat))

/-- A whole frame delivers the symbols of its bit string's 5-bit groups, most-significant first, the last group over zeros, then
padding to a multiple of 8, then EOF; and the block is idle and clear again, VSEL kept (R43, R100, R103). -/
def Obligations.FrameDeliversItsEncoding : Prop :=
  ∀ (v : Vsel) (bytes : List Byte) (s : State), s.fopen = false → s.tokenBuf = [] →
    runWords (frameWords v bytes) s =
      .next { s with
        fopen := false, vsel := v, acc := 0x000, cnt := 0, nsym := 0
        delivered := s.delivered ++ frameTokens s.rom v bytes }

/-- The block's frame gives the string of QYC's `encode(alphabet, bytes)` on an unmasked buffer: truncating ACC to 12 bits
changes no token (R92, which the spec derives; R103). -/
def Obligations.FrameStringIsQycEncode : Prop :=
  ∀ (v : Vsel) (bytes : List Byte) (s : State), s.fopen = false → s.tokenBuf = [] →
    ∃ t toks, runWords (frameWords v bytes) s = .next t ∧ t.delivered = s.delivered ++ toks ∧
      encodedString toks = qycEncode s.rom v bytes

/-- R102 (which the spec marks as derived): without padding `ceil(8n / 5)` symbols, with it `8 ceil(n / 5)` characters, a
multiple of 8. -/
def Obligations.EncodedLengths : Prop :=
  ∀ (v : Vsel) (bytes : List Byte) (s : State), s.fopen = false → s.tokenBuf = [] →
    ∃ t toks, runWords (frameWords v bytes) s = .next t ∧ t.delivered = s.delivered ++ toks ∧
      (toks.filter (fun x => x.kind = .sym)).length = (8 * bytes.length + 4) / 5 ∧
      (encodedString toks).length = 8 * ((bytes.length + 4) / 5) ∧ (encodedString toks).length % 8 = 0

/-- R103's shape, and R104: two idle blocks with one ROM, whatever they did before, give the same string for the same bytes and
variant; under two variants the strings have one length, PAD in the same places, and the same indices; and once a `=`
appears all later characters are `=`. -/
def Obligations.StringDependsOnBytesAndVariant : Prop :=
  ∀ (v v' : Vsel) (bytes : List Byte) (s s' : State), s.fopen = false → s'.fopen = false → s.tokenBuf = [] →
    s'.tokenBuf = [] → s'.rom = s.rom →
    ∃ (t t' : State) (toks toks' : List Token) (idxs : List Idx) (pads : Nat),
      runWords (frameWords v bytes) s = .next t ∧
      runWords (frameWords v' bytes) s' = .next t' ∧
      t.delivered = s.delivered ++ toks ∧ t'.delivered = s'.delivered ++ toks' ∧
      encodedString toks = idxs.map (romRead s.rom v) ++ List.replicate pads padChar ∧
      encodedString toks' = idxs.map (romRead s.rom v') ++ List.replicate pads padChar ∧
      (v' = v → toks' = toks)

/-- No token depends on the stale bits of ACC (R21, R37): two states that differ only in them deliver the same tokens, whatever
words follow, and differ only in ACC after them. -/
def Obligations.StaleBitsAreNeverSeen : Prop :=
  ∀ (ws : List CmdWord) (a : Acc) (s : State), s.cnt.toNat ≤ 4 →
    a.toNat % 2 ^ s.cnt.toNat = s.acc.toNat % 2 ^ s.cnt.toNat →
    ∃ t a', runWords ws s = .next t ∧ runWords ws { s with acc := a } = .next { t with acc := a' } ∧
      a'.toNat % 2 ^ t.cnt.toNat = t.acc.toNat % 2 ^ t.cnt.toNat

/-! ### The assembler (30_encoding.md R69 to R72) -/

/-- The names of R70 stand for their VSEL values, and a number 0 to 7 for itself. -/
def Obligations.VariantNamesAndNumbers : Prop :=
  ["RFC4648", "EXTHEX", "ZBASE32", "CROCKFORD", "ELECTROLOGICA", "GEOHASH", "WORDSAFE", "RECOMMENDED"].map
      (fun n => (readVariant n.toList).andThen operandVsel) =
    (List.range 8).map (fun k => AsmResult.ok (BitVec.ofNat 3 k)) ∧
  (∀ n, n < 8 → operandVsel (.number n) = .ok (BitVec.ofNat 3 n)) ∧
  (∀ n, 8 ≤ n → operandVsel (.number n) = .error .variant)

/-- Exactly the lines whose operands are in range are assembled, and the others emit no word; the ranges are written out, and
`AsmLine.wf` is the same check. `imm8` of BYTE, `variant` and `imm11` are R71's; that a byte of an ENCODE above 255 and a
character of its string with no ASCII code are refused too is the MODEL's choice, log entry 12. -/
def Obligations.AssemblerRefusesExactlyTheIllFormed : Prop :=
  let inRange : VariantOperand → Prop := fun
    | .number n => n < 8
    | .name _ => True
  let argsInRange : AsmArgs → Prop := fun
    | .bytes bs => ∀ n ∈ bs, n < 256
    | .text cs => ∀ c ∈ cs, c.toNat < 128
  let accepted : AsmLine → Prop := fun
    | .byte n => n < 256
    | .start v => inRange v
    | .startn v => inRange v
    | .endFrame => True
    | .word n => n < 2048
    | .encode v args => inRange v ∧ argsInRange args
    | .encodeNull v => inRange v
    | .encodeAs _ args => argsInRange args
  ∀ l : AsmLine, ((∃ ws, assembleLine l = .ok ws) ↔ accepted l) ∧ (l.wf = true ↔ accepted l)

/-- R69 and R72: what each well-formed line assembles to; a pseudo-instruction is the words of the frame of its bytes, or of its
characters' ASCII codes, in order. -/
def Obligations.AssembledWords : Prop :=
  (∀ n, n < 256 → assembleLine (.byte n) = .ok [BitVec.ofNat 11 n]) ∧
  (∀ v vsel, operandVsel v = .ok vsel → assembleLine (.start v) = .ok [BitVec.ofNat 11 (0x100 + vsel.toNat)] ∧
    assembleLine (.startn v) = .ok [BitVec.ofNat 11 (0x200 + vsel.toNat)] ∧
    assembleLine (.encodeNull v) = assembleLine (.startn v)) ∧
  assembleLine .endFrame = .ok [0x300#11] ∧
  (∀ n, n < 2048 → assembleLine (.word n) = .ok [BitVec.ofNat 11 n]) ∧
  (∀ v vsel args bytes, operandVsel v = .ok vsel → argBytes args = .ok bytes →
    assembleLine (.encode v args) = .ok (frameWords vsel bytes)) ∧
  (∀ v vsel (bs : List Nat), operandVsel v = .ok vsel → (∀ n ∈ bs, n < 256) →
    assembleLine (.encode v (.bytes bs)) = .ok (frameWords vsel (bs.map (BitVec.ofNat 8)))) ∧
  (∀ v vsel (cs : List Char), operandVsel v = .ok vsel → (∀ c ∈ cs, c.toNat < 128) →
    assembleLine (.encode v (.text cs)) = .ok (frameWords vsel (cs.map (fun c => BitVec.ofNat 8 c.toNat)))) ∧
  (∀ v args, assembleLine (.encodeAs v args) = assembleLine (.encode (.name v) args))

/-! ### Runs that end -/

/-- R149: with a consumer that eventually accepts every offered token, and no reset, every run ends: from every state some number
of edges takes every offered word and delivers every token, and leaves what the transaction level says, but for the levels the
schedule has come to. (What "eventually" means is log entry 18; the schedule is the model's own, log entry 2.) -/
def Obligations.FairConsumerEndsEveryRun : Prop :=
  ∀ s : State, s.NoReset → s.FairConsumer →
    ∃ n t u, runWords s.cmdQueue { takeAll s with cmdQueue := [] } = .next t ∧ runEdges n s = .next u ∧
      u = { t with outReady := u.outReady, edges := u.edges } ∧ u.cmdQueue = [] ∧ u.tokenBuf = []
end

