-- ==== Sys2Proof/Laws/State.lean ====
section
/-! SUPPORT. One lemma for each field of State under each update of it: no later proof unfolds a record update. -/

namespace Sys2Proof.Machine

/-! ### emit -/

@[simp] theorem emit_fopen (k : TokenKind) (d : Byte) (s : State) : (emit k d s).fopen = s.fopen := rfl
@[simp] theorem emit_vsel (k : TokenKind) (d : Byte) (s : State) : (emit k d s).vsel = s.vsel := rfl
@[simp] theorem emit_acc (k : TokenKind) (d : Byte) (s : State) : (emit k d s).acc = s.acc := rfl
@[simp] theorem emit_cnt (k : TokenKind) (d : Byte) (s : State) : (emit k d s).cnt = s.cnt := rfl
@[simp] theorem emit_nsym (k : TokenKind) (d : Byte) (s : State) : (emit k d s).nsym = s.nsym := rfl
@[simp] theorem emit_rom (k : TokenKind) (d : Byte) (s : State) : (emit k d s).rom = s.rom := rfl
@[simp] theorem emit_tokenBuf (k : TokenKind) (d : Byte) (s : State) : (emit k d s).tokenBuf = s.tokenBuf ++ [⟨k, d⟩] := rfl
@[simp] theorem emit_rst (k : TokenKind) (d : Byte) (s : State) : (emit k d s).rst = s.rst := rfl
@[simp] theorem emit_outReady (k : TokenKind) (d : Byte) (s : State) : (emit k d s).outReady = s.outReady := rfl
@[simp] theorem emit_cmdQueue (k : TokenKind) (d : Byte) (s : State) : (emit k d s).cmdQueue = s.cmdQueue := rfl
@[simp] theorem emit_edges (k : TokenKind) (d : Byte) (s : State) : (emit k d s).edges = s.edges := rfl
@[simp] theorem emit_delivered (k : TokenKind) (d : Byte) (s : State) : (emit k d s).delivered = s.delivered := rfl
@[simp] theorem emit_deliveredBefore (k : TokenKind) (d : Byte) (s : State) : (emit k d s).deliveredBefore = s.deliveredBefore := rfl

/-! ### countSymbol -/

@[simp] theorem countSymbol_fopen (s : State) : (countSymbol s).fopen = s.fopen := rfl
@[simp] theorem countSymbol_vsel (s : State) : (countSymbol s).vsel = s.vsel := rfl
@[simp] theorem countSymbol_acc (s : State) : (countSymbol s).acc = s.acc := rfl
@[simp] theorem countSymbol_cnt (s : State) : (countSymbol s).cnt = s.cnt := rfl
@[simp] theorem countSymbol_nsym (s : State) : (countSymbol s).nsym = s.nsym + 1 := rfl
@[simp] theorem countSymbol_rom (s : State) : (countSymbol s).rom = s.rom := rfl
@[simp] theorem countSymbol_tokenBuf (s : State) : (countSymbol s).tokenBuf = s.tokenBuf := rfl
@[simp] theorem countSymbol_rst (s : State) : (countSymbol s).rst = s.rst := rfl
@[simp] theorem countSymbol_outReady (s : State) : (countSymbol s).outReady = s.outReady := rfl
@[simp] theorem countSymbol_cmdQueue (s : State) : (countSymbol s).cmdQueue = s.cmdQueue := rfl
@[simp] theorem countSymbol_edges (s : State) : (countSymbol s).edges = s.edges := rfl
@[simp] theorem countSymbol_delivered (s : State) : (countSymbol s).delivered = s.delivered := rfl
@[simp] theorem countSymbol_deliveredBefore (s : State) : (countSymbol s).deliveredBefore = s.deliveredBefore := rfl

/-! ### emitSymbol -/

@[simp] theorem emitSymbol_fopen (i : Idx) (s : State) : (emitSymbol i s).fopen = s.fopen := rfl
@[simp] theorem emitSymbol_vsel (i : Idx) (s : State) : (emitSymbol i s).vsel = s.vsel := rfl
@[simp] theorem emitSymbol_acc (i : Idx) (s : State) : (emitSymbol i s).acc = s.acc := rfl
@[simp] theorem emitSymbol_cnt (i : Idx) (s : State) : (emitSymbol i s).cnt = s.cnt := rfl
@[simp] theorem emitSymbol_nsym (i : Idx) (s : State) : (emitSymbol i s).nsym = s.nsym + 1 := rfl
@[simp] theorem emitSymbol_rom (i : Idx) (s : State) : (emitSymbol i s).rom = s.rom := rfl
@[simp] theorem emitSymbol_tokenBuf (i : Idx) (s : State) : (emitSymbol i s).tokenBuf = s.tokenBuf ++ [⟨.sym, romRead s.rom s.vsel i⟩] := rfl
@[simp] theorem emitSymbol_rst (i : Idx) (s : State) : (emitSymbol i s).rst = s.rst := rfl
@[simp] theorem emitSymbol_outReady (i : Idx) (s : State) : (emitSymbol i s).outReady = s.outReady := rfl
@[simp] theorem emitSymbol_cmdQueue (i : Idx) (s : State) : (emitSymbol i s).cmdQueue = s.cmdQueue := rfl
@[simp] theorem emitSymbol_edges (i : Idx) (s : State) : (emitSymbol i s).edges = s.edges := rfl
@[simp] theorem emitSymbol_delivered (i : Idx) (s : State) : (emitSymbol i s).delivered = s.delivered := rfl
@[simp] theorem emitSymbol_deliveredBefore (i : Idx) (s : State) : (emitSymbol i s).deliveredBefore = s.deliveredBefore := rfl

/-! ### emitPad -/

@[simp] theorem emitPad_fopen (s : State) : (emitPad s).fopen = s.fopen := rfl
@[simp] theorem emitPad_vsel (s : State) : (emitPad s).vsel = s.vsel := rfl
@[simp] theorem emitPad_acc (s : State) : (emitPad s).acc = s.acc := rfl
@[simp] theorem emitPad_cnt (s : State) : (emitPad s).cnt = s.cnt := rfl
@[simp] theorem emitPad_nsym (s : State) : (emitPad s).nsym = s.nsym + 1 := rfl
@[simp] theorem emitPad_rom (s : State) : (emitPad s).rom = s.rom := rfl
@[simp] theorem emitPad_tokenBuf (s : State) : (emitPad s).tokenBuf = s.tokenBuf ++ [⟨.pad, padChar⟩] := rfl
@[simp] theorem emitPad_rst (s : State) : (emitPad s).rst = s.rst := rfl
@[simp] theorem emitPad_outReady (s : State) : (emitPad s).outReady = s.outReady := rfl
@[simp] theorem emitPad_cmdQueue (s : State) : (emitPad s).cmdQueue = s.cmdQueue := rfl
@[simp] theorem emitPad_edges (s : State) : (emitPad s).edges = s.edges := rfl
@[simp] theorem emitPad_delivered (s : State) : (emitPad s).delivered = s.delivered := rfl
@[simp] theorem emitPad_deliveredBefore (s : State) : (emitPad s).deliveredBefore = s.deliveredBefore := rfl

/-! ### emitEof -/

@[simp] theorem emitEof_fopen (s : State) : (emitEof s).fopen = s.fopen := rfl
@[simp] theorem emitEof_vsel (s : State) : (emitEof s).vsel = s.vsel := rfl
@[simp] theorem emitEof_acc (s : State) : (emitEof s).acc = s.acc := rfl
@[simp] theorem emitEof_cnt (s : State) : (emitEof s).cnt = s.cnt := rfl
@[simp] theorem emitEof_nsym (s : State) : (emitEof s).nsym = s.nsym := rfl
@[simp] theorem emitEof_rom (s : State) : (emitEof s).rom = s.rom := rfl
@[simp] theorem emitEof_tokenBuf (s : State) : (emitEof s).tokenBuf = s.tokenBuf ++ [⟨.eof, 0x00⟩] := rfl
@[simp] theorem emitEof_rst (s : State) : (emitEof s).rst = s.rst := rfl
@[simp] theorem emitEof_outReady (s : State) : (emitEof s).outReady = s.outReady := rfl
@[simp] theorem emitEof_cmdQueue (s : State) : (emitEof s).cmdQueue = s.cmdQueue := rfl
@[simp] theorem emitEof_edges (s : State) : (emitEof s).edges = s.edges := rfl
@[simp] theorem emitEof_delivered (s : State) : (emitEof s).delivered = s.delivered := rfl
@[simp] theorem emitEof_deliveredBefore (s : State) : (emitEof s).deliveredBefore = s.deliveredBefore := rfl

/-! ### raiseErr -/

@[simp] theorem raiseErr_fopen (e : ErrCode) (s : State) : (raiseErr e s).fopen = s.fopen := rfl
@[simp] theorem raiseErr_vsel (e : ErrCode) (s : State) : (raiseErr e s).vsel = s.vsel := rfl
@[simp] theorem raiseErr_acc (e : ErrCode) (s : State) : (raiseErr e s).acc = s.acc := rfl
@[simp] theorem raiseErr_cnt (e : ErrCode) (s : State) : (raiseErr e s).cnt = s.cnt := rfl
@[simp] theorem raiseErr_nsym (e : ErrCode) (s : State) : (raiseErr e s).nsym = s.nsym := rfl
@[simp] theorem raiseErr_rom (e : ErrCode) (s : State) : (raiseErr e s).rom = s.rom := rfl
@[simp] theorem raiseErr_tokenBuf (e : ErrCode) (s : State) : (raiseErr e s).tokenBuf = s.tokenBuf ++ [e.token] := rfl
@[simp] theorem raiseErr_rst (e : ErrCode) (s : State) : (raiseErr e s).rst = s.rst := rfl
@[simp] theorem raiseErr_outReady (e : ErrCode) (s : State) : (raiseErr e s).outReady = s.outReady := rfl
@[simp] theorem raiseErr_cmdQueue (e : ErrCode) (s : State) : (raiseErr e s).cmdQueue = s.cmdQueue := rfl
@[simp] theorem raiseErr_edges (e : ErrCode) (s : State) : (raiseErr e s).edges = s.edges := rfl
@[simp] theorem raiseErr_delivered (e : ErrCode) (s : State) : (raiseErr e s).delivered = s.delivered := rfl
@[simp] theorem raiseErr_deliveredBefore (e : ErrCode) (s : State) : (raiseErr e s).deliveredBefore = s.deliveredBefore := rfl

/-! ### openFrame -/

@[simp] theorem openFrame_fopen (v : Vsel) (s : State) : (openFrame v s).fopen = true := rfl
@[simp] theorem openFrame_vsel (v : Vsel) (s : State) : (openFrame v s).vsel = v := rfl
@[simp] theorem openFrame_acc (v : Vsel) (s : State) : (openFrame v s).acc = 0 := rfl
@[simp] theorem openFrame_cnt (v : Vsel) (s : State) : (openFrame v s).cnt = 0 := rfl
@[simp] theorem openFrame_nsym (v : Vsel) (s : State) : (openFrame v s).nsym = 0 := rfl
@[simp] theorem openFrame_rom (v : Vsel) (s : State) : (openFrame v s).rom = s.rom := rfl
@[simp] theorem openFrame_tokenBuf (v : Vsel) (s : State) : (openFrame v s).tokenBuf = s.tokenBuf := rfl
@[simp] theorem openFrame_rst (v : Vsel) (s : State) : (openFrame v s).rst = s.rst := rfl
@[simp] theorem openFrame_outReady (v : Vsel) (s : State) : (openFrame v s).outReady = s.outReady := rfl
@[simp] theorem openFrame_cmdQueue (v : Vsel) (s : State) : (openFrame v s).cmdQueue = s.cmdQueue := rfl
@[simp] theorem openFrame_edges (v : Vsel) (s : State) : (openFrame v s).edges = s.edges := rfl
@[simp] theorem openFrame_delivered (v : Vsel) (s : State) : (openFrame v s).delivered = s.delivered := rfl
@[simp] theorem openFrame_deliveredBefore (v : Vsel) (s : State) : (openFrame v s).deliveredBefore = s.deliveredBefore := rfl

/-! ### closeFrame -/

@[simp] theorem closeFrame_fopen (s : State) : (closeFrame s).fopen = false := rfl
@[simp] theorem closeFrame_vsel (s : State) : (closeFrame s).vsel = s.vsel := rfl
@[simp] theorem closeFrame_acc (s : State) : (closeFrame s).acc = 0 := rfl
@[simp] theorem closeFrame_cnt (s : State) : (closeFrame s).cnt = 0 := rfl
@[simp] theorem closeFrame_nsym (s : State) : (closeFrame s).nsym = 0 := rfl
@[simp] theorem closeFrame_rom (s : State) : (closeFrame s).rom = s.rom := rfl
@[simp] theorem closeFrame_tokenBuf (s : State) : (closeFrame s).tokenBuf = s.tokenBuf := rfl
@[simp] theorem closeFrame_rst (s : State) : (closeFrame s).rst = s.rst := rfl
@[simp] theorem closeFrame_outReady (s : State) : (closeFrame s).outReady = s.outReady := rfl
@[simp] theorem closeFrame_cmdQueue (s : State) : (closeFrame s).cmdQueue = s.cmdQueue := rfl
@[simp] theorem closeFrame_edges (s : State) : (closeFrame s).edges = s.edges := rfl
@[simp] theorem closeFrame_delivered (s : State) : (closeFrame s).delivered = s.delivered := rfl
@[simp] theorem closeFrame_deliveredBefore (s : State) : (closeFrame s).deliveredBefore = s.deliveredBefore := rfl

/-! ### writeAcc -/

@[simp] theorem writeAcc_fopen (a : Acc) (c : BitVec 5) (s : State) : (writeAcc a c s).fopen = s.fopen := rfl
@[simp] theorem writeAcc_vsel (a : Acc) (c : BitVec 5) (s : State) : (writeAcc a c s).vsel = s.vsel := rfl
@[simp] theorem writeAcc_acc (a : Acc) (c : BitVec 5) (s : State) : (writeAcc a c s).acc = a := rfl
@[simp] theorem writeAcc_cnt (a : Acc) (c : BitVec 5) (s : State) : (writeAcc a c s).cnt = c.setWidth 4 := rfl
@[simp] theorem writeAcc_nsym (a : Acc) (c : BitVec 5) (s : State) : (writeAcc a c s).nsym = s.nsym := rfl
@[simp] theorem writeAcc_rom (a : Acc) (c : BitVec 5) (s : State) : (writeAcc a c s).rom = s.rom := rfl
@[simp] theorem writeAcc_tokenBuf (a : Acc) (c : BitVec 5) (s : State) : (writeAcc a c s).tokenBuf = s.tokenBuf := rfl
@[simp] theorem writeAcc_rst (a : Acc) (c : BitVec 5) (s : State) : (writeAcc a c s).rst = s.rst := rfl
@[simp] theorem writeAcc_outReady (a : Acc) (c : BitVec 5) (s : State) : (writeAcc a c s).outReady = s.outReady := rfl
@[simp] theorem writeAcc_cmdQueue (a : Acc) (c : BitVec 5) (s : State) : (writeAcc a c s).cmdQueue = s.cmdQueue := rfl
@[simp] theorem writeAcc_edges (a : Acc) (c : BitVec 5) (s : State) : (writeAcc a c s).edges = s.edges := rfl
@[simp] theorem writeAcc_delivered (a : Acc) (c : BitVec 5) (s : State) : (writeAcc a c s).delivered = s.delivered := rfl
@[simp] theorem writeAcc_deliveredBefore (a : Acc) (c : BitVec 5) (s : State) : (writeAcc a c s).deliveredBefore = s.deliveredBefore := rfl

/-! ### resetBlock -/

@[simp] theorem resetBlock_fopen (s : State) : (resetBlock s).fopen = false := rfl
@[simp] theorem resetBlock_vsel (s : State) : (resetBlock s).vsel = 0 := rfl
@[simp] theorem resetBlock_acc (s : State) : (resetBlock s).acc = 0 := rfl
@[simp] theorem resetBlock_cnt (s : State) : (resetBlock s).cnt = 0 := rfl
@[simp] theorem resetBlock_nsym (s : State) : (resetBlock s).nsym = 0 := rfl
@[simp] theorem resetBlock_rom (s : State) : (resetBlock s).rom = s.rom := rfl
@[simp] theorem resetBlock_tokenBuf (s : State) : (resetBlock s).tokenBuf = [] := rfl
@[simp] theorem resetBlock_rst (s : State) : (resetBlock s).rst = s.rst := rfl
@[simp] theorem resetBlock_outReady (s : State) : (resetBlock s).outReady = s.outReady := rfl
@[simp] theorem resetBlock_cmdQueue (s : State) : (resetBlock s).cmdQueue = s.cmdQueue := rfl
@[simp] theorem resetBlock_edges (s : State) : (resetBlock s).edges = s.edges := rfl
@[simp] theorem resetBlock_delivered (s : State) : (resetBlock s).delivered = [] := rfl
@[simp] theorem resetBlock_deliveredBefore (s : State) : (resetBlock s).deliveredBefore = s.deliveredBefore ++ s.delivered := rfl

/-! ### transferToken -/

@[simp] theorem transferToken_fopen (s : State) : (transferToken s).fopen = s.fopen := rfl
@[simp] theorem transferToken_vsel (s : State) : (transferToken s).vsel = s.vsel := rfl
@[simp] theorem transferToken_acc (s : State) : (transferToken s).acc = s.acc := rfl
@[simp] theorem transferToken_cnt (s : State) : (transferToken s).cnt = s.cnt := rfl
@[simp] theorem transferToken_nsym (s : State) : (transferToken s).nsym = s.nsym := rfl
@[simp] theorem transferToken_rom (s : State) : (transferToken s).rom = s.rom := rfl
@[simp] theorem transferToken_tokenBuf (s : State) : (transferToken s).tokenBuf = s.tokenBuf.tail := rfl
@[simp] theorem transferToken_rst (s : State) : (transferToken s).rst = s.rst := rfl
@[simp] theorem transferToken_outReady (s : State) : (transferToken s).outReady = s.outReady := rfl
@[simp] theorem transferToken_cmdQueue (s : State) : (transferToken s).cmdQueue = s.cmdQueue := rfl
@[simp] theorem transferToken_edges (s : State) : (transferToken s).edges = s.edges := rfl
@[simp] theorem transferToken_delivered (s : State) : (transferToken s).delivered = s.delivered ++ s.tokenBuf.take 1 := rfl
@[simp] theorem transferToken_deliveredBefore (s : State) : (transferToken s).deliveredBefore = s.deliveredBefore := rfl

/-! ### takeAll -/

@[simp] theorem takeAll_fopen (s : State) : (takeAll s).fopen = s.fopen := rfl
@[simp] theorem takeAll_vsel (s : State) : (takeAll s).vsel = s.vsel := rfl
@[simp] theorem takeAll_acc (s : State) : (takeAll s).acc = s.acc := rfl
@[simp] theorem takeAll_cnt (s : State) : (takeAll s).cnt = s.cnt := rfl
@[simp] theorem takeAll_nsym (s : State) : (takeAll s).nsym = s.nsym := rfl
@[simp] theorem takeAll_rom (s : State) : (takeAll s).rom = s.rom := rfl
@[simp] theorem takeAll_tokenBuf (s : State) : (takeAll s).tokenBuf = [] := rfl
@[simp] theorem takeAll_rst (s : State) : (takeAll s).rst = s.rst := rfl
@[simp] theorem takeAll_outReady (s : State) : (takeAll s).outReady = s.outReady := rfl
@[simp] theorem takeAll_cmdQueue (s : State) : (takeAll s).cmdQueue = s.cmdQueue := rfl
@[simp] theorem takeAll_edges (s : State) : (takeAll s).edges = s.edges := rfl
@[simp] theorem takeAll_delivered (s : State) : (takeAll s).delivered = s.delivered ++ s.tokenBuf := rfl
@[simp] theorem takeAll_deliveredBefore (s : State) : (takeAll s).deliveredBefore = s.deliveredBefore := rfl

/-! ### popCommand -/

@[simp] theorem popCommand_fopen (s : State) : (popCommand s).fopen = s.fopen := rfl
@[simp] theorem popCommand_vsel (s : State) : (popCommand s).vsel = s.vsel := rfl
@[simp] theorem popCommand_acc (s : State) : (popCommand s).acc = s.acc := rfl
@[simp] theorem popCommand_cnt (s : State) : (popCommand s).cnt = s.cnt := rfl
@[simp] theorem popCommand_nsym (s : State) : (popCommand s).nsym = s.nsym := rfl
@[simp] theorem popCommand_rom (s : State) : (popCommand s).rom = s.rom := rfl
@[simp] theorem popCommand_tokenBuf (s : State) : (popCommand s).tokenBuf = s.tokenBuf := rfl
@[simp] theorem popCommand_rst (s : State) : (popCommand s).rst = s.rst := rfl
@[simp] theorem popCommand_outReady (s : State) : (popCommand s).outReady = s.outReady := rfl
@[simp] theorem popCommand_cmdQueue (s : State) : (popCommand s).cmdQueue = s.cmdQueue.tail := rfl
@[simp] theorem popCommand_edges (s : State) : (popCommand s).edges = s.edges := rfl
@[simp] theorem popCommand_delivered (s : State) : (popCommand s).delivered = s.delivered := rfl
@[simp] theorem popCommand_deliveredBefore (s : State) : (popCommand s).deliveredBefore = s.deliveredBefore := rfl

/-! ### offerWord -/

@[simp] theorem offerWord_fopen (w : CmdWord) (s : State) : (offerWord w s).fopen = s.fopen := rfl
@[simp] theorem offerWord_vsel (w : CmdWord) (s : State) : (offerWord w s).vsel = s.vsel := rfl
@[simp] theorem offerWord_acc (w : CmdWord) (s : State) : (offerWord w s).acc = s.acc := rfl
@[simp] theorem offerWord_cnt (w : CmdWord) (s : State) : (offerWord w s).cnt = s.cnt := rfl
@[simp] theorem offerWord_nsym (w : CmdWord) (s : State) : (offerWord w s).nsym = s.nsym := rfl
@[simp] theorem offerWord_rom (w : CmdWord) (s : State) : (offerWord w s).rom = s.rom := rfl
@[simp] theorem offerWord_tokenBuf (w : CmdWord) (s : State) : (offerWord w s).tokenBuf = [] := rfl
@[simp] theorem offerWord_rst (w : CmdWord) (s : State) : (offerWord w s).rst = false := rfl
@[simp] theorem offerWord_outReady (w : CmdWord) (s : State) : (offerWord w s).outReady = s.outReady := rfl
@[simp] theorem offerWord_cmdQueue (w : CmdWord) (s : State) : (offerWord w s).cmdQueue = w :: s.cmdQueue := rfl
@[simp] theorem offerWord_edges (w : CmdWord) (s : State) : (offerWord w s).edges = s.edges := rfl
@[simp] theorem offerWord_delivered (w : CmdWord) (s : State) : (offerWord w s).delivered = s.delivered ++ s.tokenBuf := rfl
@[simp] theorem offerWord_deliveredBefore (w : CmdWord) (s : State) : (offerWord w s).deliveredBefore = s.deliveredBefore := rfl

/-! ### advancePins, which writes the levels of the environment and nothing of the block -/

@[simp] theorem advancePins_fopen (s : State) : (advancePins s).fopen = s.fopen := by
  unfold advancePins; split <;> rfl
@[simp] theorem advancePins_vsel (s : State) : (advancePins s).vsel = s.vsel := by
  unfold advancePins; split <;> rfl
@[simp] theorem advancePins_acc (s : State) : (advancePins s).acc = s.acc := by
  unfold advancePins; split <;> rfl
@[simp] theorem advancePins_cnt (s : State) : (advancePins s).cnt = s.cnt := by
  unfold advancePins; split <;> rfl
@[simp] theorem advancePins_nsym (s : State) : (advancePins s).nsym = s.nsym := by
  unfold advancePins; split <;> rfl
@[simp] theorem advancePins_rom (s : State) : (advancePins s).rom = s.rom := by
  unfold advancePins; split <;> rfl
@[simp] theorem advancePins_tokenBuf (s : State) : (advancePins s).tokenBuf = s.tokenBuf := by
  unfold advancePins; split <;> rfl
@[simp] theorem advancePins_cmdQueue (s : State) : (advancePins s).cmdQueue = s.cmdQueue := by
  unfold advancePins; split <;> rfl
@[simp] theorem advancePins_delivered (s : State) : (advancePins s).delivered = s.delivered := by
  unfold advancePins; split <;> rfl
@[simp] theorem advancePins_deliveredBefore (s : State) : (advancePins s).deliveredBefore = s.deliveredBefore := by
  unfold advancePins; split <;> rfl

theorem advancePins_of_nil {s : State} (h : s.edges = []) : advancePins s = s := by
  unfold advancePins; simp [h]

theorem advancePins_of_cons {s : State} {e : EdgeInput} {es : List EdgeInput} (h : s.edges = e :: es) :
    advancePins s = { s with rst := e.rst, outReady := e.outReady, edges := es } := by
  unfold advancePins; simp [h]

end Sys2Proof.Machine
end

