-- ==== Sys2Proof/Laws/Ops.lean ====
section
/-! SUPPORT. One lemma for each shared operation that says all it can do: the two loops as lists of tokens, then the meanings,
the clock edge, and runs of edges with the consumer's fairness. -/

namespace Sys2Proof.Machine

/-! ### The drain loop (41_byte.md R90) -/

/-- The indices the drain loop emits. -/
def drainIdx : Nat → Acc → BitVec 5 → List Idx
  | 0, _, _ => []
  | n + 1, a, c => if 5#5 ≤ c then groupIdx a (c - 5#5) :: drainIdx n a (c - 5#5) else []

/-- The count the drain loop leaves. -/
def drainCount : Nat → BitVec 5 → BitVec 5
  | 0, c => c
  | n + 1, c => if 5#5 ≤ c then drainCount n (c - 5#5) else c

/-- The state after emitting the symbols of some indices. -/
def emitSymbols (idxs : List Idx) (s : State) : State :=
  { s with
    nsym := s.nsym + BitVec.ofNat 3 idxs.length
    tokenBuf := s.tokenBuf ++ idxs.map (symToken s.rom s.vsel) }

theorem emitSymbols_nil (s : State) : emitSymbols [] s = s := by
  simp [emitSymbols]

theorem emitSymbols_cons (i : Idx) (is : List Idx) (s : State) :
    emitSymbols (i :: is) s = emitSymbols is (emitSymbol i s) := by
  have h : BitVec.ofNat 3 (is.length + 1) = 1 + BitVec.ofNat 3 is.length := by
    rw [Nat.add_comm]; exact BitVec.ofNat_add 1 is.length
  simp [emitSymbols, emitSymbol, countSymbol, emit, symToken, h, BitVec.add_assoc]

/-- All the drain loop can do: emit its indices' symbols. -/
theorem drain_eq (n : Nat) (a : Acc) (c : BitVec 5) (s : State) :
    drain n a c s = (emitSymbols (drainIdx n a c) s, drainCount n c) := by
  induction n generalizing c s with
  | zero => simp [drain, drainIdx, drainCount, emitSymbols_nil]
  | succ n ih =>
    unfold drain drainIdx drainCount
    split
    · rw [ih, ← emitSymbols_cons]
    · rw [emitSymbols_nil]

/-- The rounds suffice: the loop leaves `c mod 5`. -/
theorem drainCount_rounds (c : BitVec 5) : (drainCount drainRounds c).toNat = c.toNat % 5 := by
  revert c; decide

theorem drainIdx_length (a : Acc) (c : BitVec 5) : (drainIdx drainRounds a c).length = c.toNat / 5 := by
  have h : ∀ n c, (drainIdx n a c).length = (drainIdx n 0 c).length := by
    intro n
    induction n with
    | zero => intro c; rfl
    | succ n ih => intro c; unfold drainIdx; split <;> simp [ih]
  rw [h]; revert c; decide

/-- BYTE on an open frame, whole. -/
theorem foldByte_eq (b : Byte) (s : State) :
    foldByte b s =
      writeAcc (shiftIn s.acc b) (drainCount drainRounds (countIn s.cnt))
        (emitSymbols (drainIdx drainRounds (shiftIn s.acc b) (countIn s.cnt)) s) := by
  simp [foldByte, drain_eq]

/-! ### The padding loop (42_frame_close.md R100) -/

/-- The number of PAD tokens from a value of NSYM. -/
def padCount (n : Nsym) : Nat := (8 - n.toNat) % 8

theorem padTo8_of_zero (n : Nat) {s : State} (h : s.nsym = 0) : padTo8 n s = s := by
  cases n <;> simp [padTo8, h]

theorem padCount_succ {n : Nsym} (h : n ≠ 0) : padCount (n + 1) + 1 = padCount n := by
  revert n; decide

theorem padCount_eq_zero {n : Nsym} : padCount n = 0 ↔ n = 0 := by
  revert n; decide

/-- All the padding loop can do, when it has rounds enough. -/
theorem padTo8_eq (n : Nat) (s : State) (hn : padCount s.nsym ≤ n) :
    padTo8 n s =
      { s with nsym := 0, tokenBuf := s.tokenBuf ++ List.replicate (padCount s.nsym) padToken } := by
  by_cases h0 : s.nsym = 0
  · rw [padTo8_of_zero _ h0, padCount_eq_zero.2 h0, List.replicate_zero, List.append_nil, ← h0]
  · induction n generalizing s with
    | zero => exact absurd (padCount_eq_zero.1 (by omega)) h0
    | succ n ih =>
      have hc := padCount_succ h0
      have hp : padTo8 n (emitPad s) =
          { emitPad s with
            nsym := 0
            tokenBuf := (emitPad s).tokenBuf ++ List.replicate (padCount (s.nsym + 1)) padToken } := by
        by_cases h1 : s.nsym + 1 = 0
        · rw [padTo8_of_zero _ h1, padCount_eq_zero.2 h1, List.replicate_zero, List.append_nil, ← h1]; rfl
        · exact ih (emitPad s) (by rw [emitPad_nsym]; omega) h1
      have hs : padTo8 (n + 1) s = padTo8 n (emitPad s) := if_neg h0
      rw [hs, hp, ← hc, List.replicate_succ]
      simp [emitPad, emit, countSymbol, padToken]

theorem padCount_le (n : Nsym) : padCount n ≤ padRounds := by
  simp only [padCount, padRounds]; omega

/-- The index of the final, partial group, if there is one. -/
def flushIdxs (s : State) : List Idx := if 0#4 < s.cnt then [flushIdx s.acc s.cnt] else []

theorem flush_eq (s : State) : flush s = emitSymbols (flushIdxs s) s := by
  unfold flush flushIdxs
  split
  · rw [emitSymbols_cons, emitSymbols_nil]
  · rw [emitSymbols_nil]

/-- END on an open frame, whole. -/
theorem finishFrame_eq (s : State) :
    finishFrame s =
      { s with
        fopen := false, acc := 0, cnt := 0, nsym := 0
        tokenBuf :=
          s.tokenBuf ++ (flushIdxs s).map (symToken s.rom s.vsel) ++
            List.replicate (padCount (s.nsym + BitVec.ofNat 3 (flushIdxs s).length)) padToken ++ [eofToken] } := by
  simp [finishFrame, flush_eq, padTo8_eq _ _ (padCount_le _), emitSymbols, closeFrame, emitEof, emit, eofToken]

/-! ### The meanings: what a command can answer -/

/-- What `exec` answers: an error with everything else as before, or the command's own effect. -/
theorem exec_cases (i : Instr) (s : State) :
    (∃ e, exec i s = .next (raiseErr e s)) ∨ (∃ v, i = .start v ∧ s.fopen = false ∧ exec i s = .next (openFrame v s)) ∨
      (∃ b, i = .byte b ∧ s.fopen = true ∧ exec i s = .next (foldByte b s)) ∨
        (i = .endFrame ∧ s.fopen = true ∧ exec i s = .next (finishFrame s)) := by
  cases h : s.fopen <;> cases i <;> simp [exec, execByte, execStart, execStartn, execEnd, h]
  all_goals exact ⟨_, rfl⟩

/-- `perform` answers `exec` of the decoded command, or RESERVED. -/
theorem perform_cases (w : CmdWord) (s : State) :
    (∃ i, decode w = .command i ∧ perform w s = exec i s) ∨
      (∃ why, decode w = .reserved why ∧ perform w s = .next (raiseErr .reserved s)) := by
  unfold perform
  cases h : decode w <;> simp

/-- A performed word always answers a next state. -/
theorem perform_next (w : CmdWord) (s : State) : ∃ t, perform w s = .next t := by
  rcases perform_cases w s with ⟨i, -, h⟩ | ⟨_, -, h⟩
  · rw [h]
    rcases exec_cases i s with ⟨_, g⟩ | ⟨_, _, _, g⟩ | ⟨_, _, _, g⟩ | ⟨_, _, g⟩ <;> exact ⟨_, g⟩
  · exact ⟨_, h⟩

/-- The four states a performed word can lead to. -/
theorem perform_effect {w : CmdWord} {s t : State} (h : perform w s = .next t) :
    (∃ e, t = raiseErr e s) ∨ (∃ v, s.fopen = false ∧ t = openFrame v s) ∨ (∃ b, s.fopen = true ∧ t = foldByte b s) ∨
      (s.fopen = true ∧ t = finishFrame s) := by
  rcases perform_cases w s with ⟨i, -, h'⟩ | ⟨_, -, h'⟩ <;> rw [h'] at h
  · rcases exec_cases i s with ⟨e, g⟩ | ⟨v, _, hf, g⟩ | ⟨b, _, hf, g⟩ | ⟨_, hf, g⟩ <;> rw [g] at h <;> injection h with h <;>
      subst h
    · exact .inl ⟨_, rfl⟩
    · exact .inr (.inl ⟨_, hf, rfl⟩)
    · exact .inr (.inr (.inl ⟨_, hf, rfl⟩))
    · exact .inr (.inr (.inr ⟨hf, rfl⟩))
  · injection h with h
    exact .inl ⟨_, h.symm⟩

/-- Frame of a performed word: only the five registers may change, and the buffer only grows at its end. -/
theorem perform_frame {w : CmdWord} {s t : State} (h : perform w s = .next t) :
    ∃ toks, t = { s with
      fopen := t.fopen, vsel := t.vsel, acc := t.acc, cnt := t.cnt, nsym := t.nsym, tokenBuf := s.tokenBuf ++ toks } := by
  rcases perform_effect h with ⟨e, rfl⟩ | ⟨v, _, rfl⟩ | ⟨b, _, rfl⟩ | ⟨_, rfl⟩
  · exact ⟨[e.token], rfl⟩
  · exact ⟨[], by simp [openFrame]⟩
  · rw [foldByte_eq]; exact ⟨_, rfl⟩
  · rw [finishFrame_eq]; exact ⟨_, by rw [List.append_assoc, List.append_assoc]⟩

/-- Words in two parts run one part after the other. -/
theorem runWords_append {a : List CmdWord} (b : List CmdWord) {s t : State} (h : runWords a s = .next t) :
    runWords (a ++ b) s = runWords b t := by
  induction a generalizing s with
  | nil => simp only [runWords] at h; injection h with h; subst h; rfl
  | cons w ws ih =>
    simp only [runWords, List.cons_append] at h ⊢
    cases ht : transact w s with
    | next u => rw [ht] at h; exact ih h
    | fault r => cases r
    | refused r => rw [ht] at h; cases h

/-! ### The clock edge -/

/-- What one rising edge can do, with the condition of each case (R140, R144, R146, R147, R149). -/
theorem clockEdge_cases (s : State) :
    (s.rst = true ∧ clockEdge s = .next (advancePins (resetBlock s))) ∨
      (s.rst = false ∧ s.tokenBuf ≠ [] ∧ s.outReady = true ∧ clockEdge s = .next (advancePins (transferToken s))) ∨
        (s.rst = false ∧ s.tokenBuf ≠ [] ∧ s.outReady = false ∧ clockEdge s = .next (advancePins s)) ∨
          (∃ w ws, s.rst = false ∧ s.tokenBuf = [] ∧ s.cmdQueue = w :: ws ∧
            clockEdge s = onNext advancePins (perform w (popCommand s))) ∨
            (s.rst = false ∧ s.tokenBuf = [] ∧ s.cmdQueue = [] ∧ clockEdge s = .next (advancePins s)) := by
  cases hr : s.rst <;> cases hb : s.tokenBuf <;> cases ho : s.outReady <;> cases hq : s.cmdQueue <;>
    simp [clockEdge, edgeAction, State.outValid, hr, hb, ho, hq]

/-! ### Runs of edges, and the consumer (70_reset_and_hazards.md R149) -/

/-- A performed word reads and writes neither the producer's queue, nor `rst`, `out_ready`, the schedule or the consumer's
record. -/
theorem perform_ports (w : CmdWord) (s : State) (q : List CmdWord) (r o : Bool) (es : List EdgeInput) (d : List Token) :
    perform w { s with cmdQueue := q, rst := r, outReady := o, edges := es, delivered := d } =
      onNext (fun t => { t with cmdQueue := q, rst := r, outReady := o, edges := es, delivered := d }) (perform w s) := by
  unfold perform
  cases decode w with
  | reserved _ => rfl
  | command i =>
    cases i <;> cases h : s.fopen <;>
      simp [exec, execByte, execStart, execStartn, execEnd, h, onNext, foldByte_eq, finishFrame_eq, emitSymbols, writeAcc,
        flushIdxs, raiseErr, emit, openFrame]

/-- Edges in two parts run one part after the other. -/
theorem runEdges_add {m : Nat} (n : Nat) {s t : State} (h : runEdges m s = .next t) :
    runEdges (m + n) s = runEdges n t := by
  induction m generalizing s with
  | zero => simp only [runEdges] at h; injection h with h; subst h; rw [Nat.zero_add]
  | succ m ih =>
    rw [Nat.add_right_comm]
    simp only [runEdges] at h ⊢
    cases ht : clockEdge s with
    | next u => rw [ht] at h; exact ih h
    | fault r => cases r
    | refused r => rw [ht] at h; cases h

/-- After an edge, whatever it did, the levels and the schedule are the next ones. -/
theorem clockEdge_pins {s t : State} (h : clockEdge s = .next t) :
    t.rst = (advancePins s).rst ∧ t.outReady = (advancePins s).outReady ∧ t.edges = (advancePins s).edges := by
  have key {u : State} (hu : advancePins u = t) (h1 : u.rst = s.rst) (h2 : u.outReady = s.outReady)
      (h3 : u.edges = s.edges) :
      t.rst = (advancePins s).rst ∧ t.outReady = (advancePins s).outReady ∧ t.edges = (advancePins s).edges := by
    subst hu
    unfold advancePins
    rw [h3]
    cases s.edges <;> simp [h1, h2, h3]
  rcases clockEdge_cases s with ⟨_, g⟩ | ⟨_, _, _, g⟩ | ⟨_, _, _, g⟩ | ⟨w, ws, _, _, _, g⟩ | ⟨_, _, _, g⟩ <;> rw [g] at h
  case inr.inr.inr.inl =>
    obtain ⟨u, hu⟩ := perform_next w (popCommand s)
    obtain ⟨_, hf⟩ := perform_frame hu
    rw [hu] at h
    injection h with h
    exact key h (by rw [hf]; rfl) (by rw [hf]; rfl) (by rw [hf]; rfl)
  all_goals
    injection h with h
    exact key h rfl rfl rfl

/-- No reset, now or later: one edge keeps that. -/
theorem noReset_clockEdge {s t : State} (hn : s.NoReset) (h : clockEdge s = .next t) : t.NoReset := by
  obtain ⟨hr, -, he⟩ := clockEdge_pins h
  unfold State.NoReset
  rw [hr, he]
  unfold advancePins
  cases hs : s.edges with
  | nil => exact ⟨hn.1, by simp [hs]⟩
  | cons e es => exact ⟨hn.2 e (by simp [hs]), fun e' h' => hn.2 e' (by simp [hs, h'])⟩

/-- No reset, now or later: any number of edges keeps that. -/
theorem noReset_runEdges {n : Nat} {s t : State} (hn : s.NoReset) (h : runEdges n s = .next t) : t.NoReset := by
  induction n generalizing s with
  | zero => simp only [runEdges] at h; injection h with h; subst h; exact hn
  | succ n ih =>
    simp only [runEdges] at h
    cases hu : clockEdge s with
    | next u => rw [hu] at h; exact ih (noReset_clockEdge hn hu) h
    | fault r => cases r
    | refused r => rw [hu] at h; cases h

/-- A fair consumer stays fair (R149). -/
theorem fairConsumer_runEdges {n : Nat} {s t : State} (hf : s.FairConsumer) (h : runEdges n s = .next t) :
    t.FairConsumer := fun m u hu hv => hf (n + m) u (by rw [runEdges_add m h, hu]) hv

/-- A consumer that always accepts is fair (R149). -/
theorem fairConsumer_of_ready {s : State} (ho : s.outReady = true) (he : s.edges = []) : s.FairConsumer := by
  intro n t h _
  refine ⟨0, t, rfl, .inl ?_⟩
  induction n generalizing s with
  | zero => simp only [runEdges] at h; injection h with h; subst h; exact ho
  | succ n ih =>
    simp only [runEdges] at h
    cases hu : clockEdge s with
    | next u =>
      rw [hu] at h
      obtain ⟨-, h2, h3⟩ := clockEdge_pins hu
      have ha : advancePins s = s := by unfold advancePins; rw [he]
      exact ih (by rw [h2, ha, ho]) (by rw [h3, ha, he]) h
    | fault r => cases r
    | refused r => rw [hu] at h; cases h
end Sys2Proof.Machine
end

