-- ==== Sys2Proof/Laws/Operands.lean ====
section
/-! SUPPORT. The values of Machine/Operands.lean as numbers, and the drain loop's indices from them (41_byte.md R90,
42_frame_close.md R100). -/

namespace Sys2Proof.Machine

/-- The new accumulator is `{ACC[3:0], b}` (R91). -/
theorem shiftIn_eq (acc : Acc) (b : Byte) : shiftIn acc b = acc.extractLsb' 0 4 ++ b := by
  apply BitVec.eq_of_getLsbD_eq
  intro i hi
  rw [BitVec.getLsbD_append]
  simp only [shiftIn, BitVec.getLsbD_or, BitVec.getLsbD_shiftLeft, BitVec.getLsbD_setWidth, BitVec.getLsbD_extractLsb']
  by_cases h8 : i < 8
  · simp [h8, hi]
  · have hb : b.getLsbD i = false := BitVec.getLsbD_of_ge _ _ (by omega)
    simp [h8, hi, hb]
    intro
    omega

theorem shiftIn_toNat (acc : Acc) (b : Byte) : (shiftIn acc b).toNat = (acc.toNat * 256 + b.toNat) % 4096 := by
  have hb := b.isLt
  rw [shiftIn_eq, BitVec.toNat_append]
  simp
  rw [← Nat.shiftLeft_add_eq_or_of_lt hb, Nat.shiftLeft_eq]
  omega

theorem countIn_toNat (c : Cnt) : (countIn c).toNat = c.toNat + 8 := by
  revert c; decide

/-- The index of a group is five bits of the accumulator (R90). -/
theorem groupIdx_eq (a : Acc) (c : BitVec 5) : groupIdx a c = BitVec.ofNat 5 (a.toNat / 2 ^ c.toNat % 32) := by
  apply BitVec.eq_of_toNat_eq
  simp [groupIdx, Nat.shiftRight_eq_div_pow]
  rw [show (31 : Nat) = 2 ^ 5 - 1 from rfl, Nat.and_two_pow_sub_one_eq_mod]
  simp

/-- The drain loop's indices, in order: five bits at `c - 5`, then at `c - 10`, and so on (R90). -/
theorem drainIdx_eq (a : Acc) (n : Nat) (c : BitVec 5) (hn : c.toNat < 5 * (n + 1)) :
    drainIdx n a c =
      (List.range (c.toNat / 5)).map (fun j => BitVec.ofNat 5 (a.toNat / 2 ^ (c.toNat - 5 * (j + 1)) % 32)) := by
  induction n generalizing c with
  | zero =>
    have h0 : c.toNat / 5 = 0 := by omega
    simp [drainIdx, h0]
  | succ n ih =>
    unfold drainIdx
    by_cases h : 5#5 ≤ c
    · have h5 : 5 ≤ c.toNat := by simpa [BitVec.le_def] using h
      have hs : (c - 5#5).toNat = c.toNat - 5 := by rw [BitVec.toNat_sub_of_le h]; rfl
      obtain ⟨k, hk⟩ : ∃ k, c.toNat / 5 = k + 1 := ⟨c.toNat / 5 - 1, by omega⟩
      have hk' : (c.toNat - 5) / 5 = k := by omega
      rw [if_pos h, ih _ (by omega), groupIdx_eq, hs, hk, hk', List.range_succ_eq_map, List.map_cons, List.map_map]
      congr 1
      apply List.map_congr_left
      intro j _
      simp only [Function.comp]
      rw [show c.toNat - 5 - 5 * (j + 1) = c.toNat - 5 * (j.succ + 1) by omega]
    · have h5 : ¬ 5 ≤ c.toNat := by simpa [BitVec.le_def] using h
      have h0 : c.toNat / 5 = 0 := by omega
      simp [h, h0]

/-- The index of the final group: the significant bits over zeros (R100). -/
theorem flushIdx_eq (a : Acc) (c : Cnt) (h : c.toNat ≤ 4) (h0 : c ≠ 0) :
    flushIdx a c = BitVec.ofNat 5 (a.toNat % 2 ^ c.toNat * 2 ^ (5 - c.toNat)) := by
  have hc : c = 1 ∨ c = 2 ∨ c = 3 ∨ c = 4 := by revert c; decide
  apply BitVec.eq_of_toNat_eq
  have ha := a.isLt
  rcases hc with rfl | rfl | rfl | rfl <;> simp [flushIdx, Nat.shiftLeft_eq] <;>
    rw [show (31 : Nat) = 2 ^ 5 - 1 from rfl, Nat.and_two_pow_sub_one_eq_mod] <;> omega

end Sys2Proof.Machine
end

