-- ==== Sys2Proof/Laws/PerInstr.lean ====
section
/-! SUPPORT. Statements made per command: the word of a command is of its own row of the opcode map (30_encoding.md R63). -/

namespace Sys2Proof.Laws.RowLaw

/-- `(encode i & mask) = match` for the row of `i`. -/
def Statement (i : Instr) : Prop := i.row.holds (encode i) = true

theorem byte (b : Byte) : Statement (.byte b) := by
  revert b; unfold Statement; decide

theorem start (vsel : Vsel) : Statement (.start vsel) := by
  revert vsel; unfold Statement; decide

theorem startn (vsel : Vsel) : Statement (.startn vsel) := by
  revert vsel; unfold Statement; decide

theorem endFrame : Statement .endFrame := by
  unfold Statement; decide

end Sys2Proof.Laws.RowLaw
end

