-- ==== Sys2Proof/Laws/Reference.lean ====
section
/-! SUPPORT. The bit strings of Machine/Reference.lean: values, whole groups and what they leave, under append
(20_memory.md R43). -/

namespace Sys2Proof.Machine

theorem foldl_bits (l : List Bool) (n : Nat) :
    l.foldl (fun n b => 2 * n + b.toNat) n = n * 2 ^ l.length + bitsValue l := by
  induction l generalizing n with
  | nil => simp [bitsValue]
  | cons x xs ih =>
    simp only [List.foldl_cons, bitsValue, List.length_cons]
    rw [ih, ih (2 * 0 + x.toNat)]
    ring

theorem bitsValue_append (l m : List Bool) : bitsValue (l ++ m) = bitsValue l * 2 ^ m.length + bitsValue m := by
  conv_lhs => unfold bitsValue
  rw [List.foldl_append, foldl_bits]
  rfl

theorem bitsValue_lt (l : List Bool) : bitsValue l < 2 ^ l.length := by
  induction l with
  | nil => simp [bitsValue]
  | cons x xs ih =>
    have h := bitsValue_append [x] xs
    rw [List.singleton_append] at h
    rw [h, List.length_cons, pow_succ]
    cases x <;> simp [bitsValue] <;> simp [bitsValue] at ih <;> omega

theorem byteBits_value (b : Byte) : bitsValue (byteBits b) = b.toNat := by
  revert b
  set_option maxRecDepth 100000 in decide

@[simp] theorem byteBits_length (b : Byte) : (byteBits b).length = 8 := rfl

theorem frameBits_length (bytes : List Byte) : (frameBits bytes).length = 8 * bytes.length := by
  induction bytes with
  | nil => rfl
  | cons b bs ih => simp [frameBits]; ring

/-- A list of fewer than five bits. -/
theorem short_of_not_five {l : List Bool}
    (h : ∀ b4 b3 b2 b1 b0 rest, l = b4 :: b3 :: b2 :: b1 :: b0 :: rest → False) : l.length < 5 := by
  match l, h with
  | [], _ => simp
  | [_], _ => simp
  | [_, _], _ => simp
  | [_, _, _], _ => simp
  | [_, _, _, _], _ => simp
  | a :: b :: c :: d :: e :: r, h => exact (h a b c d e r rfl).elim

theorem groups_of_short {l : List Bool} (h : l.length < 5) : wholeGroups l = [] ∧ leftBits l = l := by
  match l, h with
  | [], _ => exact ⟨rfl, rfl⟩
  | [_], _ => exact ⟨rfl, rfl⟩
  | [_, _], _ => exact ⟨rfl, rfl⟩
  | [_, _, _], _ => exact ⟨rfl, rfl⟩
  | [_, _, _, _], _ => exact ⟨rfl, rfl⟩
  | _ :: _ :: _ :: _ :: _ :: _, h => simp only [List.length_cons] at h; omega

theorem wholeGroups_append (l x : List Bool) : wholeGroups (l ++ x) = wholeGroups l ++ wholeGroups (leftBits l ++ x) := by
  induction l using wholeGroups.induct with
  | case1 a b c d e r ih => simp [wholeGroups, leftBits, ih]
  | case2 l h =>
    obtain ⟨hw, hl⟩ := groups_of_short (short_of_not_five h)
    rw [hw, hl, List.nil_append]

theorem leftBits_append (l x : List Bool) : leftBits (l ++ x) = leftBits (leftBits l ++ x) := by
  induction l using wholeGroups.induct with
  | case1 a b c d e r ih => simp [leftBits, ih]
  | case2 l h => rw [(groups_of_short (short_of_not_five h)).2]

/-- What is left over is the end of the list, `length mod 5` bits long. -/
theorem leftBits_eq_drop (l : List Bool) : leftBits l = l.drop (l.length - l.length % 5) := by
  induction l using wholeGroups.induct with
  | case1 a b c d e r ih =>
    have h5 : r.length + 1 + 1 + 1 + 1 + 1 - (r.length + 1 + 1 + 1 + 1 + 1) % 5 = r.length - r.length % 5 + 5 := by omega
    simp only [leftBits, ih, List.length_cons, h5]
    simp [List.drop_succ_cons]
  | case2 l h =>
    have hs := short_of_not_five h
    rw [(groups_of_short hs).2, Nat.mod_eq_of_lt hs]
    simp

theorem leftBits_length (l : List Bool) : (leftBits l).length = l.length % 5 := by
  rw [leftBits_eq_drop, List.length_drop]
  omega

theorem leftBits_value (l : List Bool) : bitsValue (leftBits l) = bitsValue l % 2 ^ (l.length % 5) := by
  have hcut : l = l.take (l.length - l.length % 5) ++ leftBits l := by rw [leftBits_eq_drop]; simp
  have hl := leftBits_length l
  have hlt := bitsValue_lt (leftBits l)
  rw [hl] at hlt
  conv_rhs => rw [show bitsValue l = bitsValue (l.take (l.length - l.length % 5) ++ leftBits l) by rw [← hcut]]
  rw [bitsValue_append, hl, Nat.add_comm, Nat.add_mul_mod_self_right, Nat.mod_eq_of_lt hlt]

/-- The whole groups as numbers: the `j`-th is five bits of the string's value. -/
theorem wholeGroups_eq (l : List Bool) :
    wholeGroups l =
      (List.range (l.length / 5)).map (fun j => BitVec.ofNat 5 (bitsValue l / 2 ^ (l.length - 5 * (j + 1)) % 32)) := by
  induction l using wholeGroups.induct with
  | case1 a b c d e r ih =>
    have hv : bitsValue (a :: b :: c :: d :: e :: r) = bitsValue [a, b, c, d, e] * 2 ^ r.length + bitsValue r :=
      bitsValue_append [a, b, c, d, e] r
    have hl : (a :: b :: c :: d :: e :: r).length / 5 = r.length / 5 + 1 := by simp; omega
    have h5 : bitsValue [a, b, c, d, e] < 32 := bitsValue_lt [a, b, c, d, e]
    rw [hl, List.range_succ_eq_map, List.map_cons, List.map_map, wholeGroups, ih]
    congr 1
    · congr 1
      rw [hv, show (a :: b :: c :: d :: e :: r).length - 5 * (0 + 1) = r.length by simp, Nat.add_comm,
        Nat.add_mul_div_right _ _ (by positivity), Nat.div_eq_of_lt (bitsValue_lt r)]
      omega
    · apply List.map_congr_left
      intro j hj
      have hj := List.mem_range.1 hj
      have e1 : (a :: b :: c :: d :: e :: r).length - 5 * (j.succ + 1) = r.length - 5 * (j + 1) := by simp; omega
      simp only [Function.comp]
      congr 1
      rw [hv, e1]
      set m := r.length - 5 * (j + 1)
      have e2 : 2 ^ r.length = 2 ^ (5 * (j + 1)) * 2 ^ m := by rw [← pow_add]; congr 1; omega
      rw [e2, ← mul_assoc, Nat.add_comm, Nat.add_mul_div_right _ _ (by positivity),
        show 5 * (j + 1) = 5 * j + 5 by ring, pow_add,
        show bitsValue [a, b, c, d, e] * (2 ^ (5 * j) * 2 ^ 5) = bitsValue [a, b, c, d, e] * 2 ^ (5 * j) * 32 by ring,
        Nat.add_mul_mod_self_right]
  | case2 l h =>
    have hs := short_of_not_five h
    rw [(groups_of_short hs).1, Nat.div_eq_of_lt hs]
    simp

end Sys2Proof.Machine
end

