-- ==== Sys2Proof/Tests/Slice0.lean ====
section
/-! SUPPORT. Tests. Expected values are those of 95_test_vectors.md, of the tables of 30_encoding.md and 10_state.md, or worked out
by hand from a rule; each block names its source. The witnesses at the end show that the hypotheses of the statements can be
met. -/

namespace Sys2Proof.Tests

open Sys2Proof Sys2Proof.Machine

/-- A state as 95_test_vectors.md writes one, `FOPEN | VSEL | ACC | CNT | NSYM`; the rest as after reset. -/
def st (fopen : Bool) (vsel : Vsel) (acc : Acc) (cnt : Cnt) (nsym : Nsym) : State :=
  { State.reset with fopen := fopen, vsel := vsel, acc := acc, cnt := cnt, nsym := nsym }

/-- The next state, if there is one. -/
def next? : Host.Outcome State Fault Refusal → Option State
  | .next s => some s
  | .fault _ => none
  | .refused _ => none

/-- The token words of a next state's buffer, and its registers against those of another state. -/
def gives (o : Host.Outcome State Fault Refusal) (words : List TokenWord) (t : State) : Bool :=
  match next? o with
  | some s =>
    s.tokenBuf.map Token.word == words && s.fopen == t.fopen && s.vsel == t.vsel && s.acc == t.acc && s.cnt == t.cnt &&
      s.nsym == t.nsym
  | none => false

/-! ### Well-formedness: what each check refuses (30_encoding.md R67, R71, R72) -/

theorem test_imm8_256_refused : (AsmLine.byte 256).wf = false ∧ (AsmLine.byte 255).wf = true := by decide
theorem test_variant_8_refused :
    (AsmLine.start (.number 8)).wf = false ∧ (AsmLine.startn (.number 8)).wf = false ∧
      (AsmLine.encodeNull (.number 8)).wf = false ∧ (AsmLine.start (.number 7)).wf = true := by decide
theorem test_imm11_2048_refused : (AsmLine.word 2048).wf = false ∧ (AsmLine.word 2047).wf = true := by decide
theorem test_encode_operands_refused :
    (AsmLine.encode (.number 8) (.bytes [])).wf = false ∧ (AsmLine.encode (.name .zbase32) (.bytes [1, 256])).wf = false ∧
      (AsmLine.encodeAs .geohash (.text ['é'])).wf = false := by decide
theorem test_unprintable_refused : printableOk '\n' = false ∧ printableOk 'f' = true := by decide
theorem test_tokens_refused :
    (Token.mk .sym 0x3D).wf = false ∧ (Token.mk .pad 0x41).wf = false ∧ (Token.mk .eof 0x01).wf = false ∧
      (Token.mk .err 0x00).wf = false ∧ (Token.mk .err 0x05).wf = false := by decide

/-! ### Decoding: words written out bit by bit from the formats of 30_encoding.md R61 -/

theorem test_decode_byte : decode 0b000_01100110#11 = .command (.byte 0x66) := by decide
theorem test_decode_start : decode 0b001_00000_010#11 = .command (.start 2) := by decide
theorem test_decode_startn : decode 0b010_00000_101#11 = .command (.startn 5) := by decide
theorem test_decode_end : decode 0b011_00000000#11 = .command .endFrame := by decide
theorem test_decode_reserved_bit : decode 0b001_00001_000#11 = .reserved .nonzeroBits := by decide
theorem test_decode_reserved_opcode : decode 0b111_11111111#11 = .reserved .opcode := by decide
theorem test_encode_words :
    [Instr.byte 0xFF, .start 7, .startn 7, .endFrame].map encode = [0x0FF#11, 0x107#11, 0x207#11, 0x300#11] := by decide
theorem test_table_word : decodeTableWord 16 0x207 = some (.startn 7) ∧ decodeTableWord 16 0x400 = none ∧
    decodeTableWord 16 0x866 = none := by decide

/-! ### The commands (95_test_vectors.md 2.2 to 2.5, 2.7, 3) -/

theorem test_start_opens : gives (exec (.start 7) (st false 6 0 0 0)) [] (st true 7 0 0 0) = true := by decide
theorem test_start_in_frame :
    gives (exec (.start 1) (st true 0 0x066 3 1)) [0x303] (st true 0 0x066 3 1) = true := by decide
theorem test_startn_idle : gives (exec (.startn 5) (st false 3 0 0 0)) [0x301] (st false 3 0 0 0) = true := by decide
theorem test_startn_in_frame : gives (exec (.startn 0) (st true 0 0 0 0)) [0x303] (st true 0 0 0 0) = true := by decide
theorem test_byte_stale_bits :
    gives (exec (.byte 0x00) (st true 0 0x0FF 3 1)) [0x034, 0x041] (st true 0 0xF00 1 3) = true := by decide
theorem test_byte_takes_four_bits :
    gives (exec (.byte 0x01) (st true 0 0xDEF 4 4)) [0x036, 0x041] (st true 0 0xF01 2 6) = true := by decide
theorem test_end_pads_six :
    gives (exec .endFrame (st true 0 0x066 3 1)) [0x059, 0x13D, 0x13D, 0x13D, 0x13D, 0x13D, 0x13D, 0x200]
      (st false 0 0 0 0) = true := by decide
theorem test_end_zbase32 :
    gives (exec .endFrame (st true 2 0x0FF 1 3)) [0x06F, 0x13D, 0x13D, 0x13D, 0x13D, 0x200] (st false 2 0 0 0) = true := by
  decide
theorem test_reserved_in_frame :
    gives (perform 0x301 (st true 0 0x066 3 1)) [0x304] (st true 0 0x066 3 1) = true := by decide
/-- 41_byte.md R94 by hand: CNT 15, `a` = 0xF00 from ACC = 0xFFF and b = 0; `c` = 23, 18, 13, 8, 3; the shifts 18 and 13 give 0,
8 gives 0b01111, 3 gives 0b00000. -/
theorem test_byte_unreached_count :
    gives (exec (.byte 0x00) (st true 0 0xFFF 15 0)) [0x041, 0x041, 0x050, 0x041] (st true 0 0xF00 3 4) = true := by decide
theorem test_rom_zb32_sym31 : romRead Config.hw.rom 2 31 = 0x38 ∧ romRead Config.hw.rom 5 10 = 0x62 := by decide

/-! ### The edge (70_reset_and_hazards.md R140, R144, R146) -/

theorem test_edge_takes_command :
    gives (step ((st true 0 0x066 3 1).withFetchWord 16 0x06F)) [0x05A, 0x058] (st true 0 0x66F 1 3) = true := by decide
theorem test_edge_transfers_token :
    (next? (step { st true 0 0x66F 1 3 with tokenBuf := [⟨.sym, 0x5A⟩, ⟨.sym, 0x58⟩], cmdQueue := [0x300] })).map
      (fun s => (s.delivered.map Token.word, s.tokenBuf.map Token.word, s.cmdQueue)) =
      some ([0x05A], [0x058], [0x300]) := by decide
/-- 95_test_vectors.md P4: reset inside a frame, the token `M` not yet delivered. -/
theorem test_edge_resets :
    gives (step { st true 0 0x066 3 1 with tokenBuf := [⟨.sym, 0x4D⟩], rst := true }) [] State.reset = true := by decide

/-! ### The assembler (95_test_vectors.md 3, 30_encoding.md R69 to R72) -/

theorem test_asm_byte_and_comment : assembleText "        BYTE   0x41          ; 041  no frame open" = .ok [0x041] := by decide
theorem test_asm_variant_name : assembleText "START  ZBASE32" = .ok [0x102] := by decide
theorem test_asm_raw_word : assembleText ".word  0x7FF" = .ok [0x7FF] := by decide
theorem test_asm_character : assembleText "BYTE  'f'            ; 066" = .ok [0x066] := by decide
theorem test_asm_encode_text :
    assembleText "ENCODE_RFC4648 \"foobar\"" = .ok [0x100, 0x066, 0x06F, 0x06F, 0x062, 0x061, 0x072, 0x300] := by decide
theorem test_asm_encode_bytes : assembleText "ENCODE 3, 0x12, 52" = .ok [0x103, 0x012, 0x034, 0x300] := by decide
theorem test_asm_encode_null : assembleText "ENCODE_NULL GEOHASH" = .ok [0x205] := by decide
theorem test_asm_refusals :
    assembleText "BYTE 256" = .error .imm8 ∧ assembleText "START 8" = .error .variant ∧
      assembleText "START BASE64" = .error .unknownVariant ∧ assembleText ".word 2048" = .error .imm11 ∧
      assembleText "LOAD 1" = .error .form := by decide
/-- Log entries 11 and 12: one refused line refuses the source, and an ENCODE_<VARIANT> without args is the empty frame. -/
theorem test_asm_models_choices :
    assembleSource ["BYTE 1", "BYTE 256", "END"] = .error .imm8 ∧ assembleText "ENCODE_GEOHASH" = .ok [0x105, 0x300] := by decide

/-! ### Witnesses: the hypotheses of the statements can be met -/

/-- An open frame after the byte 0x66, and a block with `w` offered. -/
def open1 : State := st true 0 0x066 3 1
@[inherit_doc open1]
def offered (w : CmdWord) : State := { State.reset with cmdQueue := [w] }
@[inherit_doc open1]
def held : State := { open1 with tokenBuf := [⟨.sym, 0x4D⟩], outReady := false, edges := [⟨false, false⟩] }

theorem witness_EncodeInvertsDecode : decode 0x107#11 = .command (.start 7) := by decide
theorem witness_DecodeFollowsItsPseudocode :
    [0x0FF#11, 0x107#11, 0x207#11, 0x300#11, 0x108#11, 0x208#11, 0x301#11, 0x400#11].map
      (fun w => (w.toNat / 256, decide (w.toNat % 256 / 8 = 0), decide (w.toNat % 256 = 0))) =
      [(0, false, false), (1, true, false), (2, true, false), (3, true, true), (1, false, false), (2, false, false),
        (3, true, false), (4, true, true)] := by decide
theorem witness_OnlyZBase32HasADuplicate :
    romRead Config.hw.rom 2 7 = romRead Config.hw.rom 2 31 ∧ (7#5 : Idx) ≠ 31#5 := by decide
theorem witness_RomIsNeverWritten : ∃ t, step State.reset = .next t := ⟨_, rfl⟩
theorem witness_StartFollowsItsRule :
    State.reset.fopen = false ∧ State.reset.tokenBuf = [] ∧ open1.fopen = true ∧ (0x108#11).toNat / 256 = 1 ∧
      (0x108#11).toNat % 256 / 8 ≠ 0 := by decide
theorem witness_StartnFollowsItsRule :
    State.reset.fopen = false ∧ open1.fopen = true ∧ (0x2F8#11).toNat / 256 = 2 ∧ (0x2F8#11).toNat % 256 / 8 ≠ 0 := by decide
/-- For AbsentIsNotEmpty, EndTableByRemainder, OpenFrameHoldsTheBitString, FrameDeliversItsEncoding, FrameStringIsQycEncode,
EncodedLengths, StringDependsOnBytesAndVariant, with a block that has already worked (VSEL 2, tokens delivered). -/
theorem witness_idle_block :
    let s : State := { st false 2 0 0 0 with delivered := [⟨.eof, 0⟩] }
    s.fopen = false ∧ s.tokenBuf = [] ∧ State.reset.fopen = false ∧ State.reset.tokenBuf = [] ∧ s.rom = State.reset.rom := by
  decide
theorem witness_ByteFollowsItsRule :
    (st true 0 0 0 0).fopen = true ∧ (st true 0 0 0 0).cnt.toNat ≤ 4 ∧ (st true 0 0xFFF 4 4).cnt.toNat ≤ 4 ∧
      (st true 0 0xFFF 15 7).fopen = true ∧ State.reset.fopen = false := by decide
theorem witness_ByteTableByCount :
    ([0, 1, 2, 3, 4] : List Cnt).all (fun c => (st true 0 0xABC c 0).fopen && decide ((st true 0 0xABC c 0).cnt.toNat ≤ 4)) =
      true := by decide
theorem witness_EndFollowsItsRule :
    (st true 0 0 0 0).fopen = true ∧ (st true 0 0 0 0).cnt.toNat ≤ 4 ∧ (st true 0 0xF6F 4 4).cnt.toNat ≤ 4 ∧
      State.reset.fopen = false ∧ (0x301#11).toNat / 256 = 3 ∧ (0x301#11).toNat % 256 ≠ 0 := by decide
theorem witness_EndOnUnreachedCounts :
    ([5, 6, 15] : List Cnt).all (fun c => (st true 0 0xFFF c 0).fopen && decide (5 ≤ (st true 0 0xFFF c 0).cnt.toNat)) =
      true := by decide
theorem witness_ErrorsArePrecise :
    perform 0x7FF State.reset = .next { State.reset with tokenBuf := [] ++ [⟨.err, 0x04⟩] } ∧
      (offered 0x041).rst = false ∧ (offered 0x041).tokenBuf = [] ∧ (offered 0x041).cmdQueue = [0x041] := ⟨rfl, rfl, rfl, rfl⟩
theorem witness_ByteOrEndInIdleIsNoFrame : State.reset.fopen = false := by decide
theorem witness_StartInAFrameIsFrameOpen : open1.fopen = true := by decide
theorem witness_ReservedWordsChangeNothing :
    decode 0x3FF#11 = .reserved .nonzeroBits ∧ decode 0x400#11 = .reserved .opcode := by decide
theorem witness_ErrorsDoNotDisturbAFrame :
    State.reset.fopen = false ∧ State.reset.tokenBuf = [] ∧ decode 0x7FF#11 = .reserved .opcode ∧
      decode 0x101#11 = .command (.start 1) ∧ decode 0x207#11 = .command (.startn 7) := by decide
theorem witness_Inv : Inv State.reset ∧ Inv open1 :=
  ⟨⟨by decide, by decide, rfl, by decide, by decide⟩, ⟨by decide, by decide, rfl, by decide, by decide⟩⟩
theorem witness_TokensOfACommandAreLegal :
    ∃ t, perform 0x300 open1 = .next t ∧ t.tokenBuf = open1.tokenBuf ++ t.tokenBuf := ⟨_, rfl, rfl⟩
theorem witness_StepRunsTheOfferedCommand :
    (offered 0x102).rst = false ∧ (offered 0x102).tokenBuf = [] ∧ (offered 0x102).cmdQueue = 0x102 :: [] ∧
      decode 0x102#11 = .command (.start 2) ∧ decode 0x7FF#11 = .reserved .opcode := by decide
theorem witness_FetchWordRunsNext : decodeTableWord 16 0x300 = some .endFrame := by decide
theorem witness_ResetEdge : ({ held with rst := true } : State).rst = true := by decide
theorem witness_TokensTransferOldestFirst :
    held.rst = false ∧ held.tokenBuf = ⟨.sym, 0x4D⟩ :: [] ∧ held.outReady = false ∧
      ({ held with outReady := true } : State).outReady = true := by decide
theorem witness_CommandReadyWhenDrained :
    (offered 0x102).cmdReady = true ∧ (offered 0x102).cmdQueue = 0x102 :: [] ∧ (∃ t, step (offered 0x102) = .next t) ∧
      held.cmdReady = false ∧ ∃ t, step { held with cmdQueue := [0x102] } = .next t := ⟨rfl, rfl, ⟨_, rfl⟩, rfl, _, rfl⟩
theorem witness_IdleEdgeKeepsTheState :
    State.reset.rst = false ∧ State.reset.tokenBuf = [] ∧ State.reset.cmdQueue = [] := by decide
theorem witness_ConsumerCanHang :
    held.rst = false ∧ held.outReady = false ∧ held.tokenBuf ≠ [] ∧ ∀ e ∈ held.edges, e.rst = false ∧ e.outReady = false := by
  decide
theorem witness_StreamIsTheCommandsTokens :
    (∃ t, step { held with rst := true } = .next t) ∧ held.rst = false ∧ ∃ t, step (offered 0x300) = .next t :=
  ⟨⟨_, rfl⟩, rfl, _, rfl⟩
theorem witness_FaultRecordIsNeverCleared : ∃ t, step (offered 0x100) = .next t ∧ (offered 0x100).rst = false ∧ t.NoErr :=
  ⟨_, rfl, rfl, by decide⟩
/-- For CommandTakesOneEdgeAndOnePerToken and ClockedRunIsTheTransactionRun. -/
theorem witness_ready_consumer :
    (offered 0x300).rst = false ∧ (offered 0x300).outReady = true ∧ (offered 0x300).edges = [] ∧
      (offered 0x300).tokenBuf = [] ∧ (offered 0x300).cmdQueue = 0x300 :: [] ∧
      ∃ t, transact 0x300 { offered 0x300 with cmdQueue := [] } = .next t := ⟨rfl, rfl, rfl, rfl, rfl, _, rfl⟩
theorem witness_StepKeepsTheInvariant : ∃ t, step (offered 0x102) = .next t ∧ (offered 0x102).cnt.toNat ≤ 4 :=
  ⟨_, rfl, by decide⟩
theorem witness_offered_meets_the_invariant : Inv (offered 0x102) := ⟨by decide, by decide, rfl, by decide, by decide⟩
theorem witness_IdleAccumulatorStaysClear :
    (State.reset.fopen = false → State.reset.acc = 0 ∧ State.reset.cnt = 0 ∧ State.reset.nsym = 0) ∧
      ∃ t, step State.reset = .next t ∧ t.fopen = false := ⟨by decide, _, rfl, rfl⟩
theorem witness_StaleBitsAreNeverSeen :
    (st true 0 0xF00 1 3).cnt.toNat ≤ 4 ∧
      (0x0A4#12).toNat % 2 ^ (st true 0 0xF00 1 3).cnt.toNat =
        (st true 0 0xF00 1 3).acc.toNat % 2 ^ (st true 0 0xF00 1 3).cnt.toNat := by decide
theorem witness_VariantNamesAndNumbers : 7 < 8 ∧ 8 ≤ 8 := by decide
/-- Each range of AssemblerRefusesExactlyTheIllFormed at both sides of its bound. -/
theorem witness_AssemblerRefusesExactlyTheIllFormed :
    assembleLine (.byte 255) = .ok [0x0FF] ∧ assembleLine (.byte 256) = .error .imm8 ∧
      assembleLine (.word 2047) = .ok [0x7FF] ∧ assembleLine (.word 2048) = .error .imm11 ∧
      assembleLine (.startn (.number 7)) = .ok [0x207] ∧ assembleLine (.startn (.number 8)) = .error .variant ∧
      assembleLine (.encode (.number 0) (.bytes [255])) = .ok [0x100, 0x0FF, 0x300] ∧
      assembleLine (.encode (.number 0) (.bytes [256])) = .error .imm8 ∧
      assembleLine (.encode (.number 0) (.text ['\x7F'])) = .ok [0x100, 0x07F, 0x300] := by decide
theorem witness_AssembledWords :
    operandVsel (.name .recommended) = .ok 7 ∧ argBytes (.bytes [0, 255]) = .ok [0x00, 0xFF] ∧ 255 < 256 ∧ 2047 < 2048 ∧
      (∀ n ∈ [0, 255], n < 256) ∧ ∀ c ∈ ['f', '\x7F'], c.toNat < 128 := by
  refine ⟨by decide, by decide, by decide, by decide, by simp, by simp⟩
/-- A token is buffered and a word offered, and the consumer accepts at the second edge. -/
def heldThenTaken : State := { held with cmdQueue := [0x300], edges := [⟨false, true⟩] }
theorem witness_FairConsumerEndsEveryRun : heldThenTaken.NoReset ∧ heldThenTaken.FairConsumer := by
  refine ⟨by unfold State.NoReset; decide, fun n t h _ => ?_⟩
  cases n with
  | zero => injection h with h; subst h; exact ⟨1, _, rfl, .inl rfl⟩
  | succ n => exact fairConsumer_of_ready rfl rfl n t h ‹_›
/-- R149's hang is no fair run: the consumer of this block never accepts. -/
theorem test_hanging_consumer_is_not_fair : ¬ ({ held with edges := [] } : State).FairConsumer := by
  intro h
  obtain ⟨m, u, hu, hr⟩ := h 0 _ rfl rfl
  have same : ∀ m, runEdges m { held with edges := [] } = .next { held with edges := [] } := by
    intro m
    induction m with
    | zero => rfl
    | succ m ih => exact ih
  rw [same] at hu
  injection hu with hu
  subst hu
  exact absurd hr (by decide)

end Sys2Proof.Tests
end

section
/-! The ROM under a performed word and under a clock edge (10_state.md R30). -/

namespace Sys2Proof.Machine

/-- The ROM's part of a performed word's frame. -/
theorem perform_rom {w : CmdWord} {s t : State} (h : perform w s = .next t) : t.rom = s.rom := by
  obtain ⟨_, ht⟩ := perform_frame h
  rw [ht]

/-- Every kind of edge, the reset included, keeps the ROM (R30, R140). -/
theorem clockEdge_rom {s t : State} (h : clockEdge s = .next t) : t.rom = s.rom := by
  rcases clockEdge_cases s with ⟨_, reset⟩ | ⟨_, _, _, transfer⟩ | ⟨_, _, _, hold⟩ | ⟨w, _, _, _, _, command⟩ |
    ⟨_, _, _, idle⟩
  · cases reset.symm.trans h; simp
  · cases transfer.symm.trans h; simp
  · cases hold.symm.trans h; simp
  · obtain ⟨u, hu⟩ := perform_next w (popCommand s)
    rw [hu] at command
    cases command.symm.trans h
    rw [advancePins_rom, perform_rom hu, popCommand_rom]
  · cases idle.symm.trans h; simp

/-- Settles O9: a step is one clock edge, and every kind of edge keeps the ROM. -/
theorem romIsNeverWritten : Obligations.RomIsNeverWritten :=
  fun _ _ h => clockEdge_rom h

end Sys2Proof.Machine
end

section
/-! The fields of a command word as numbers, and decoding by them (30_encoding.md R60, R65). -/

namespace Sys2Proof

@[simp] theorem opField_toNat (w : CmdWord) : (opField w).toNat = w.toNat / 256 := by
  have := w.isLt
  simp only [opField, BitVec.extractLsb'_toNat, Nat.shiftRight_eq_div_pow]
  omega

@[simp] theorem dataField_toNat (w : CmdWord) : (dataField w).toNat = w.toNat % 256 := by
  simp [dataField]

@[simp] theorem upperData_toNat (d : Byte) : (upperData d).toNat = d.toNat / 8 := by
  have := d.isLt
  simp only [upperData, BitVec.extractLsb'_toNat, Nat.shiftRight_eq_div_pow]
  omega

theorem dataField_eq_ofNat (w : CmdWord) : dataField w = BitVec.ofNat 8 (w.toNat % 256) := by
  rw [← dataField_toNat, BitVec.ofNat_toNat, BitVec.setWidth_eq]

theorem vselData_eq_ofNat (d : Byte) : vselData d = BitVec.ofNat 3 d.toNat := by
  simp [vselData, BitVec.extractLsb']

theorem opField_eq_iff {w : CmdWord} {op : BitVec 3} : opField w = op ↔ w.toNat / 256 = op.toNat := by
  rw [← BitVec.toNat_inj, opField_toNat]

theorem dataField_eq_zero_iff {w : CmdWord} : dataField w = 0#8 ↔ w.toNat % 256 = 0 := by
  rw [← BitVec.toNat_inj, dataField_toNat, BitVec.toNat_zero]

theorem upperData_eq_zero_iff {w : CmdWord} : upperData (dataField w) = 0#5 ↔ w.toNat % 256 / 8 = 0 := by
  rw [← BitVec.toNat_inj, upperData_toNat, dataField_toNat, BitVec.toNat_zero]

/-! One equation for each OP value of R65. -/

theorem decode_of_op_byte {w : CmdWord} (h : opField w = 0b000#3) : decode w = .command (.byte (dataField w)) := by
  simp [decode, h]

theorem decode_of_op_start {w : CmdWord} (h : opField w = 0b001#3) :
    decode w =
      if upperData (dataField w) = 0#5 then .command (.start (vselData (dataField w))) else .reserved .nonzeroBits := by
  simp [decode, h]

theorem decode_of_op_startn {w : CmdWord} (h : opField w = 0b010#3) :
    decode w =
      if upperData (dataField w) = 0#5 then .command (.startn (vselData (dataField w))) else .reserved .nonzeroBits := by
  simp [decode, h]

theorem decode_of_op_end {w : CmdWord} (h : opField w = 0b011#3) :
    decode w = if dataField w = 0#8 then .command .endFrame else .reserved .nonzeroBits := by
  simp [decode, h]

theorem decode_of_op_reserved {w : CmdWord} (h : 4 ≤ (opField w).toNat) : decode w = .reserved .opcode := by
  have ne (op : BitVec 3) (hop : op.toNat < 4) : opField w ≠ op := by
    rintro rfl
    omega
  simp [decode, ne]

/-- Settles O3: each clause is the equation of its OP value, with the test on DATA read as a number. -/
theorem decodeFollowsItsPseudocode : Obligations.DecodeFollowsItsPseudocode := by
  intro w op d
  have opIs (v : BitVec 3) : op = v.toNat → opField w = v := opField_eq_iff.mpr
  have vselIs : vselData (dataField w) = BitVec.ofNat 3 d := by rw [vselData_eq_ofNat, dataField_toNat]
  refine ⟨fun h => ?byte, fun h hd => ?start, fun h hd => ?startn, fun h hd => ?endFrame, fun h hd => ?upperBits,
    fun h hd => ?endBits, fun h => ?opcode⟩
  case byte => rw [decode_of_op_byte (opIs _ h), dataField_eq_ofNat]
  case start => rw [decode_of_op_start (opIs _ h), if_pos (upperData_eq_zero_iff.mpr hd), vselIs]
  case startn => rw [decode_of_op_startn (opIs _ h), if_pos (upperData_eq_zero_iff.mpr hd), vselIs]
  case endFrame => rw [decode_of_op_end (opIs _ h), if_pos (dataField_eq_zero_iff.mpr hd)]
  case upperBits =>
    have upper : upperData (dataField w) ≠ 0#5 := mt upperData_eq_zero_iff.mp hd
    rcases h with h | h
    · exact ⟨_, by rw [decode_of_op_start (opIs _ h), if_neg upper]⟩
    · exact ⟨_, by rw [decode_of_op_startn (opIs _ h), if_neg upper]⟩
  case endBits => exact ⟨_, by rw [decode_of_op_end (opIs _ h), if_neg (mt dataField_eq_zero_iff.mp hd)]⟩
  case opcode => exact ⟨_, decode_of_op_reserved (by rwa [opField_toNat])⟩

end Sys2Proof
end

section
/-! Variant operands: the names as text, and the numbers (30_encoding.md R70, R71). -/

namespace Sys2Proof.Machine

theorem operandVsel_number_of_lt {n : Nat} (h : n < 8) : operandVsel (.number n) = .ok (BitVec.ofNat 3 n) :=
  if_pos (decide_eq_true h)

theorem operandVsel_number_of_ge {n : Nat} (h : 8 ≤ n) : operandVsel (.number n) = .error .variant :=
  if_neg (by simpa [VariantOperand.wf] using h)

/-- Every row of the table of R70 is found by its own text: no name hides a later one. -/
theorem readVariant_of_mem {p : String × VariantName} (h : p ∈ variantNames) :
    readVariant p.1.toList = .ok (.name p.2) := by
  have found : ∀ p ∈ variantNames, readName p.1.toList = some p.2 := by decide
  rw [readVariant, found p h]

/-- The VSEL value a table row's text stands for. -/
theorem readVariant_operandVsel {p : String × VariantName} (h : p ∈ variantNames) :
    (readVariant p.1.toList).andThen operandVsel = .ok (variantVsel p.2) := by
  rw [readVariant_of_mem h]
  rfl

/-- Settles O50: the eight texts are the rows of R70's table, in the order of their VSEL values; a number is its own VSEL
value below 8 and refused from there. -/
theorem variantNamesAndNumbers : Obligations.VariantNamesAndNumbers := by
  refine ⟨?_, fun _ => operandVsel_number_of_lt, fun _ => operandVsel_number_of_ge⟩
  calc (variantNames.map Prod.fst).map (fun n => (readVariant n.toList).andThen operandVsel)
    _ = variantNames.map (fun p => .ok (variantVsel p.2)) := by
      rw [List.map_map]
      exact List.map_congr_left fun _ h => readVariant_operandVsel h
    _ = (List.range 8).map (fun k => .ok (BitVec.ofNat 3 k)) := rfl

end Sys2Proof.Machine
end

section
/-! Command words of one format: decoding an encoded command, and the mask test of format V (30_encoding.md R61 to R65). -/

namespace Sys2Proof

/-- `Decode` undoes the encoder (R61, R65). -/
theorem decode_encode (i : Instr) : decode (encode i) = .command i := by
  cases i with
  | byte b =>
    have hop : opField (encode (.byte b)) = 0b000#3 := BitVec.extractLsb'_append_eq_left
    have hdata : dataField (encode (.byte b)) = b := BitVec.extractLsb'_append_eq_right
    rw [decode_of_op_byte hop, hdata]
  | start vsel => revert vsel; decide
  | startn vsel => revert vsel; decide
  | endFrame => rfl

/-- The mask of format V clears the operand and keeps OP and the reserved bits (R61, R63). -/
theorem and_maskV_toNat (w : CmdWord) : (w &&& 0x7F8#11).toNat = w.toNat / 8 * 8 := by
  have hshift : w &&& 0x7F8#11 = (w >>> 3) <<< 3 := by
    apply BitVec.eq_of_getLsbD_eq
    intro i hi
    interval_cases i <;> simp
  have := w.isLt
  rw [hshift, BitVec.toNat_shiftLeft, BitVec.toNat_ushiftRight, Nat.shiftLeft_eq, Nat.shiftRight_eq_div_pow]
  omega

/-- The mask test of format V: OP is the row's and the reserved bits are zero. -/
theorem and_maskV_eq_iff {w : CmdWord} (op : BitVec 3) :
    w &&& 0x7F8#11 = op ++ 0#8 ↔ opField w = op ∧ upperData (dataField w) = 0#5 := by
  have hpattern : (op ++ 0#8).toNat = op.toNat * 256 := by
    rw [BitVec.toNat_append, BitVec.toNat_zero, Nat.or_zero, Nat.shiftLeft_eq]
  rw [← BitVec.toNat_inj, and_maskV_toNat, hpattern, opField_eq_iff, upperData_eq_zero_iff]
  omega

theorem decode_eq_start_iff {w : CmdWord} :
    (∃ v, decode w = .command (.start v)) ↔ opField w = 0b001#3 ∧ upperData (dataField w) = 0#5 := by
  constructor
  · rintro ⟨v, h⟩
    simp only [decode] at h
    split_ifs at h with _ hop hupper <;> cases h
    exact ⟨hop, hupper⟩
  · rintro ⟨hop, hupper⟩
    exact ⟨_, by rw [decode_of_op_start hop, if_pos hupper]⟩

theorem decode_eq_startn_iff {w : CmdWord} :
    (∃ v, decode w = .command (.startn v)) ↔ opField w = 0b010#3 ∧ upperData (dataField w) = 0#5 := by
  constructor
  · rintro ⟨v, h⟩
    simp only [decode] at h
    split_ifs at h with _ _ _ hop hupper <;> cases h
    exact ⟨hop, hupper⟩
  · rintro ⟨hop, hupper⟩
    exact ⟨_, by rw [decode_of_op_startn hop, if_pos hupper]⟩

end Sys2Proof
end

section
/-! The transaction level (00_scope.md R9): one command's transaction from what `exec` answers, and the run of a frame as the
fold of its bytes. -/

namespace Sys2Proof.Machine

theorem perform_of_reserved {w : CmdWord} {why : ReservedWhy} (h : decode w = .reserved why) (s : State) :
    perform w s = .next (raiseErr .reserved s) := by
  simp [perform, h]

theorem transact_encode {i : Instr} {s t : State} (h : exec i s = .next t) :
    transact (encode i) s = .next (takeAll t) := by
  simp [transact, perform, decode_encode, h, onNext]

theorem runWords_cons {w : CmdWord} {s t : State} (ws : List CmdWord) (h : transact w s = .next t) :
    runWords (w :: ws) s = runWords ws t := by
  simp [runWords, h]

theorem runWords_singleton {w : CmdWord} {s t : State} (h : transact w s = .next t) : runWords [w] s = .next t :=
  runWords_cons [] h

/-! ### What each command answers, by FOPEN -/

theorem exec_start_of_idle {s : State} (h : s.fopen = false) (v : Vsel) :
    exec (.start v) s = .next (openFrame v s) := by
  simp [exec, execStart, h]

theorem exec_start_of_open {s : State} (h : s.fopen = true) (v : Vsel) :
    exec (.start v) s = .next (raiseErr .frameOpen s) := by
  simp [exec, execStart, h]

theorem exec_startn_of_idle {s : State} (h : s.fopen = false) (v : Vsel) :
    exec (.startn v) s = .next (raiseErr .nullInput s) := by
  simp [exec, execStartn, h]

theorem exec_startn_of_open {s : State} (h : s.fopen = true) (v : Vsel) :
    exec (.startn v) s = .next (raiseErr .frameOpen s) := by
  simp [exec, execStartn, h]

theorem exec_byte_of_open {s : State} (h : s.fopen = true) (b : Byte) :
    exec (.byte b) s = .next (foldByte b s) := by
  simp [exec, execByte, h]

theorem exec_end_of_open {s : State} (h : s.fopen = true) : exec .endFrame s = .next (finishFrame s) := by
  simp [exec, execEnd, h]

/-! ### A frame -/

/-- The transaction of one BYTE on an open frame. -/
def takeByte (s : State) (b : Byte) : State := takeAll (foldByte b s)

/-- The state of an idle block after START and the frame's bytes, all tokens taken. -/
def frameBody (vsel : Vsel) (bytes : List Byte) (s : State) : State := bytes.foldl takeByte (takeAll (openFrame vsel s))

@[simp] theorem foldByte_fopen (b : Byte) (s : State) : (foldByte b s).fopen = s.fopen := by
  rw [foldByte_eq]; rfl

@[simp] theorem takeByte_fopen (s : State) (b : Byte) : (takeByte s b).fopen = s.fopen := by
  simp [takeByte]

@[simp] theorem foldl_takeByte_fopen (bytes : List Byte) (s : State) : (bytes.foldl takeByte s).fopen = s.fopen := by
  induction bytes generalizing s with
  | nil => rfl
  | cons b bs ih => rw [List.foldl_cons, ih, takeByte_fopen]

@[simp] theorem frameBody_fopen (v : Vsel) (bytes : List Byte) (s : State) : (frameBody v bytes s).fopen = true := by
  simp [frameBody]

theorem runWords_bytes (bytes : List Byte) {s : State} (h : s.fopen = true) :
    runWords (bytes.map fun b => encode (.byte b)) s = .next (bytes.foldl takeByte s) := by
  induction bytes generalizing s with
  | nil => rfl
  | cons b bs ih =>
    rw [List.map_cons, runWords_cons _ (transact_encode (exec_byte_of_open h b)), List.foldl_cons]
    exact ih ((takeByte_fopen s b).trans h)

theorem runWords_openWords (v : Vsel) (bytes : List Byte) {s : State} (h : s.fopen = false) :
    runWords (openWords v bytes) s = .next (frameBody v bytes s) := by
  rw [openWords, runWords_cons _ (transact_encode (exec_start_of_idle h v))]
  exact runWords_bytes bytes rfl

/-- A whole frame from an idle block: the body, then END. -/
theorem runWords_frameWords (v : Vsel) (bytes : List Byte) {s : State} (h : s.fopen = false) :
    runWords (frameWords v bytes) s = .next (takeAll (finishFrame (frameBody v bytes s))) := by
  rw [frameWords, runWords_append _ (runWords_openWords v bytes h)]
  exact runWords_singleton (transact_encode (exec_end_of_open (frameBody_fopen v bytes s)))

end Sys2Proof.Machine
end

section
/-! Two variants with one table give the same tokens (40_frame_open.md R80): VSEL reaches the output through the table it
selects and in no other way. -/

namespace Sys2Proof.Machine

/-- Two blocks that differ in VSEL alone, and whose VSEL values select the same table. -/
def SameTable (s u : State) : Prop := ∃ v, u = { s with vsel := v } ∧ romTable s.rom v = romTable s.rom s.vsel

theorem symToken_congr {rom : Rom} {v v' : Vsel} (h : romTable rom v = romTable rom v') :
    symToken rom v = symToken rom v' := by
  funext i
  simp only [symToken, romRead, h]

theorem SameTable.delivered {s u : State} (h : SameTable s u) : u.delivered = s.delivered := by
  obtain ⟨_, rfl, _⟩ := h; rfl

theorem SameTable.takeAll {s u : State} (h : SameTable s u) : SameTable (takeAll s) (takeAll u) := by
  obtain ⟨v, rfl, ht⟩ := h
  exact ⟨v, rfl, ht⟩

theorem SameTable.foldByte {s u : State} (h : SameTable s u) (b : Byte) : SameTable (foldByte b s) (foldByte b u) := by
  obtain ⟨v, rfl, ht⟩ := h
  rw [foldByte_eq, foldByte_eq]
  exact ⟨v, by simp [emitSymbols, writeAcc, symToken_congr ht], ht⟩

theorem SameTable.finishFrame {s u : State} (h : SameTable s u) : SameTable (finishFrame s) (finishFrame u) := by
  obtain ⟨v, rfl, ht⟩ := h
  rw [finishFrame_eq, finishFrame_eq]
  exact ⟨v, by simp [flushIdxs, symToken_congr ht], ht⟩

theorem SameTable.frameBody {v v' : Vsel} {s : State} (ht : romTable s.rom v' = romTable s.rom v)
    (bytes : List Byte) : SameTable (frameBody v bytes s) (frameBody v' bytes s) :=
  List.foldl_rel ⟨v', rfl, ht⟩ fun b _ _ _ h => (h.foldByte b).takeAll

/-- Electrologica (4) and Recommended (7) read the table of RFC4648 (0) (R24). -/
theorem romTable_of_rfc4648_alias (rom : Rom) {v : Vsel} (hv : v = 4 ∨ v = 7) : romTable rom v = romTable rom 0 := by
  rcases hv with rfl | rfl <;> rfl

end Sys2Proof.Machine
end

section
/-! The frame open commands (40_frame_open.md R80, R81). -/

namespace Sys2Proof.Machine

/-- A word with a format V opcode and a reserved bit set gives ERR 0x04 and changes nothing else (R64, R125). -/
theorem perform_of_upperData_ne_zero {w : CmdWord} (hop : w.toNat / 256 = 1 ∨ w.toNat / 256 = 2)
    (hupper : w.toNat % 256 / 8 ≠ 0) (s : State) : perform w s = .next (raiseErr .reserved s) := by
  obtain ⟨-, -, -, -, upperBits, -⟩ := decodeFollowsItsPseudocode w
  obtain ⟨_, h⟩ := upperBits hop hupper
  exact perform_of_reserved h s

/-- A frame of variant 4 or 7 delivers the tokens of variant 0's. -/
theorem frame_delivered_of_rfc4648_alias {v : Vsel} (hv : v = 4 ∨ v = 7) (bytes : List Byte) (s : State) :
    (takeAll (finishFrame (frameBody v bytes s))).delivered = (takeAll (finishFrame (frameBody 0 bytes s))).delivered :=
  (SameTable.frameBody (romTable_of_rfc4648_alias s.rom hv) bytes).finishFrame.takeAll.delivered

/-- Settles O10: the word, the three answers by FOPEN and reserved bits, and the frames of variants 4 and 7, whose runs
differ from variant 0's in VSEL alone. -/
theorem startFollowsItsRule : Obligations.StartFollowsItsRule := by
  refine ⟨?encoding, ?mask, ?idle, ?frameOpen, ?reserved, ?aliases⟩
  case encoding => exact fun _ => rfl
  case mask => exact fun _ => decode_eq_start_iff.trans (and_maskV_eq_iff 0b001#3).symm
  case idle => exact fun v _ h => exec_start_of_idle h v
  case frameOpen => exact fun v _ h => exec_start_of_open h v
  case reserved => exact fun _ s hop hupper => perform_of_upperData_ne_zero (.inl hop) hupper s
  case aliases =>
    intro v bytes s h _ hv
    exact ⟨_, _, runWords_frameWords v bytes h, runWords_frameWords 0 bytes h,
      frame_delivered_of_rfc4648_alias hv bytes s⟩

/-- STARTN then START from an idle block: the one ERR token, then the opened frame (R81, R122). -/
theorem runWords_startn_start {s : State} (h : s.fopen = false) (vsel v : Vsel) :
    runWords [encode (.startn vsel), encode (.start v)] s =
      .next (takeAll (openFrame v (takeAll (raiseErr .nullInput s)))) := by
  have hidle : (takeAll (raiseErr .nullInput s)).fopen = false := h
  rw [runWords_cons _ (transact_encode (exec_startn_of_idle h vsel))]
  exact runWords_singleton (transact_encode (exec_start_of_idle hidle v))

/-- Settles O11: the word, the three errors, and the START after it. -/
theorem startnFollowsItsRule : Obligations.StartnFollowsItsRule := by
  refine ⟨?encoding, ?mask, ?idle, ?frameOpen, ?reserved, ?nextStart⟩
  case encoding => exact fun _ => rfl
  case mask => exact fun _ => decode_eq_startn_iff.trans (and_maskV_eq_iff 0b010#3).symm
  case idle => exact fun v _ h => exec_startn_of_idle h v
  case frameOpen => exact fun v _ h => exec_startn_of_open h v
  case reserved => exact fun _ s hop hupper => perform_of_upperData_ne_zero (.inr hop) hupper s
  case nextStart =>
    intro vsel v s h
    rw [runWords_startn_start h]
    simp [takeAll, openFrame, raiseErr, emit, ErrCode.code]

end Sys2Proof.Machine
end

section
/-! BYTE (41_byte.md R90): the mask test of format B, and the folded byte in numbers, free of the drain loop. -/

namespace Sys2Proof

/-- The mask of format B keeps OP and clears DATA (R61, R63). -/
theorem and_maskB (w : CmdWord) : w &&& 0x700#11 = opField w ++ 0#8 := by
  apply BitVec.eq_of_getLsbD_eq
  intro i hi
  rw [BitVec.getLsbD_append]
  interval_cases i <;> simp [opField]

/-- The mask test of format B: OP is the row's, whatever DATA is. -/
theorem and_maskB_eq_iff {w : CmdWord} (op : BitVec 3) : w &&& 0x700#11 = op ++ 0#8 ↔ opField w = op := by
  rw [and_maskB]
  refine ⟨fun h => ?_, fun h => by rw [h]⟩
  simpa only [BitVec.extractLsb'_append_eq_left] using congrArg (BitVec.extractLsb' 8 3) h

theorem decode_eq_byte_iff {w : CmdWord} : (∃ b, decode w = .command (.byte b)) ↔ opField w = 0b000#3 := by
  constructor
  · rintro ⟨b, h⟩
    simp only [decode] at h
    split_ifs at h with hop <;> cases h
    exact hop
  · exact fun hop => ⟨_, decode_of_op_byte hop⟩

end Sys2Proof

namespace Sys2Proof.Machine

theorem exec_byte_of_idle {s : State} (h : s.fopen = false) (b : Byte) :
    exec (.byte b) s = .next (raiseErr .noFrame s) := by
  simp [exec, execByte, h]

theorem shiftIn_eq_ofNat (acc : Acc) (b : Byte) :
    shiftIn acc b = BitVec.ofNat 12 ((acc.toNat * 256 + b.toNat) % 4096) := by
  rw [← shiftIn_toNat, BitVec.ofNat_toNat, BitVec.setWidth_eq]

/-- CNT after BYTE. -/
theorem drainCount_countIn (c : Cnt) :
    (drainCount drainRounds (countIn c)).setWidth 4 = BitVec.ofNat 4 ((c.toNat + 8) % 5) := by
  rw [← countIn_toNat, ← drainCount_rounds, BitVec.ofNat_toNat]

/-- How many symbols BYTE emits. -/
theorem drainIdx_countIn_length (a : Acc) (c : Cnt) :
    (drainIdx drainRounds a (countIn c)).length = (c.toNat + 8) / 5 := by
  rw [drainIdx_length, countIn_toNat]

/-- The indices BYTE emits: the count is five bits wide, so the rounds suffice. -/
theorem drainIdx_countIn (a : Acc) (c : Cnt) :
    drainIdx drainRounds a (countIn c) =
      (List.range ((c.toNat + 8) / 5)).map
        (fun j => BitVec.ofNat 5 (a.toNat / 2 ^ (c.toNat + 8 - 5 * (j + 1)) % 32)) := by
  have rounds : (countIn c).toNat < 5 * (drainRounds + 1) := (countIn c).isLt.trans (by decide)
  rw [drainIdx_eq _ _ _ rounds, countIn_toNat]

/-- NSYM counts modulo 8 (R23). -/
theorem nsym_add_ofNat (n : Nsym) (k : Nat) : n + BitVec.ofNat 3 k = BitVec.ofNat 3 ((n.toNat + k) % 8) := by
  apply BitVec.eq_of_toNat_eq
  simp

/-- Settles O13: the word by the mask of format B; the folded byte field by field, from the drain loop's count and indices;
and NO_FRAME. -/
theorem byteFollowsItsRule : Obligations.ByteFollowsItsRule := by
  refine ⟨?encoding, ?mask, ?fold, ?noFrame⟩
  case encoding => exact fun _ => rfl
  case mask => exact fun _ => decode_eq_byte_iff.trans (and_maskB_eq_iff 0b000#3).symm
  case fold =>
    intro b s h a c
    refine ⟨?_, fun hc => by omega⟩
    rw [exec_byte_of_open h, foldByte_eq, writeAcc, emitSymbols, drainCount_countIn, drainIdx_countIn_length,
      drainIdx_countIn, nsym_add_ofNat, List.map_map, shiftIn_toNat, shiftIn_eq_ofNat]
    rfl
  case noFrame => exact fun b _ h => exec_byte_of_idle h b

end Sys2Proof.Machine
end

section
/-! END (42_frame_close.md R100): the mask test of format Z, and the closed frame in numbers. -/

namespace Sys2Proof

theorem decode_eq_endFrame_iff {w : CmdWord} :
    decode w = .command .endFrame ↔ opField w = 0b011#3 ∧ dataField w = 0#8 := by
  constructor
  · intro h
    simp only [decode] at h
    split_ifs at h with _ _ _ _ _ hop hdata <;> cases h
    exact ⟨hop, hdata⟩
  · rintro ⟨hop, hdata⟩
    rw [decode_of_op_end hop, if_pos hdata]

/-- A command word is its two fields (R60). -/
theorem opField_append_dataField (w : CmdWord) : opField w ++ dataField w = w :=
  BitVec.extractLsb'_append_extractLsb'_eq_extractLsb' (by decide) |>.trans BitVec.extractLsb'_eq_self

/-- The mask test of format Z: the mask keeps all 11 bits, so OP is the row's and DATA is zero (R61, R63). -/
theorem and_maskZ_eq_iff {w : CmdWord} (op : BitVec 3) :
    w &&& 0x7FF#11 = op ++ 0#8 ↔ opField w = op ∧ dataField w = 0#8 := by
  have hmask : w &&& 0x7FF#11 = w := BitVec.and_allOnes
  rw [hmask]
  constructor
  · rintro rfl
    exact ⟨BitVec.extractLsb'_append_eq_left, BitVec.extractLsb'_append_eq_right⟩
  · rintro ⟨hop, hdata⟩
    rw [← opField_append_dataField w, hop, hdata]

end Sys2Proof

namespace Sys2Proof.Machine

theorem exec_end_of_idle {s : State} (h : s.fopen = false) : exec .endFrame s = .next (raiseErr .noFrame s) := by
  simp [exec, execEnd, h]

/-- A word with END's opcode and DATA not zero gives ERR 0x04 and changes nothing else (R64, R125). -/
theorem perform_of_end_data_ne_zero {w : CmdWord} (hop : w.toNat / 256 = 3) (hdata : w.toNat % 256 ≠ 0) (s : State) :
    perform w s = .next (raiseErr .reserved s) := by
  obtain ⟨-, -, -, -, -, endBits, -⟩ := decodeFollowsItsPseudocode w
  obtain ⟨_, h⟩ := endBits hop hdata
  exact perform_of_reserved h s

/-- The index END flushes: none at CNT 0, else the last CNT bits of ACC over zeros. -/
theorem flushIdxs_of_cnt_le {s : State} (h : s.cnt.toNat ≤ 4) :
    flushIdxs s =
      if s.cnt = 0 then [] else [BitVec.ofNat 5 (s.acc.toNat % 2 ^ s.cnt.toNat * 2 ^ (5 - s.cnt.toNat))] := by
  unfold flushIdxs
  by_cases h0 : s.cnt = 0
  · simp [h0]
  · have hpos : 0#4 < s.cnt := by bv_omega
    rw [if_pos hpos, if_neg h0, flushIdx_eq _ _ h h0]

/-- The padding after `k` more symbols fills the string up to a multiple of 8. -/
theorem padCount_add_ofNat (n : Nsym) (k : Nat) :
    padCount (n + BitVec.ofNat 3 k) = (8 - (n.toNat + k) % 8) % 8 := by
  simp [padCount]

/-- Settles O15: the word by the mask of format Z; the closed frame, whose final tokens and pad count are those of
`finishFrame`; NO_FRAME and RESERVED. -/
theorem endFollowsItsRule : Obligations.EndFollowsItsRule := by
  refine ⟨?encoding, ?mask, ?close, ?noFrame, ?reserved⟩
  case encoding => rfl
  case mask => exact fun _ => decode_eq_endFrame_iff.trans (and_maskZ_eq_iff 0b011#3).symm
  case close =>
    intro s h hc final n
    have hfinal : (flushIdxs s).map (symToken s.rom s.vsel) = final := by
      rw [flushIdxs_of_cnt_le hc, apply_ite (List.map (symToken s.rom s.vsel))]
      rfl
    have hlength : (flushIdxs s).length = final.length := by rw [← hfinal, List.length_map]
    rw [exec_end_of_open h, finishFrame_eq, hfinal, padCount_add_ofNat, hlength]
    rfl
  case noFrame => exact fun _ h => exec_end_of_idle h
  case reserved => exact fun _ s hop hdata => perform_of_end_data_ne_zero hop hdata s

end Sys2Proof.Machine
end

section
/-! Which tokens of a command are ERR tokens: those of a raised error, and no token of BYTE or of END on an open frame
(60_exceptions.md R120, R127). -/

namespace Sys2Proof.Machine

/-- A list of tokens with no ERR token among them. -/
def ErrFree (toks : List Token) : Prop := ∀ x ∈ toks, x.kind ≠ .err

theorem ErrFree.nil : ErrFree [] := List.forall_mem_nil _

theorem ErrFree.append {a b : List Token} (ha : ErrFree a) (hb : ErrFree b) : ErrFree (a ++ b) :=
  List.forall_mem_append.mpr ⟨ha, hb⟩

theorem ErrFree.filter_err {toks : List Token} (h : ErrFree toks) : toks.filter (fun x => x.kind = .err) = [] :=
  List.filter_eq_nil_iff.mpr fun x hx => by simpa using h x hx

theorem errFree_symTokens (rom : Rom) (vsel : Vsel) (idxs : List Idx) : ErrFree (idxs.map (symToken rom vsel)) := by
  simp [ErrFree, symToken]

theorem errFree_padTokens (n : Nat) : ErrFree (List.replicate n padToken) := by
  intro x hx
  rw [List.eq_of_mem_replicate hx]
  decide

theorem errFree_eofToken : ErrFree [eofToken] := by
  simp [ErrFree, eofToken]

/-- The tokens of END on an open frame (R100). -/
def endTokens (s : State) : List Token :=
  (flushIdxs s).map (symToken s.rom s.vsel) ++
    List.replicate (padCount (s.nsym + BitVec.ofNat 3 (flushIdxs s).length)) padToken ++ [eofToken]

theorem errFree_endTokens (s : State) : ErrFree (endTokens s) :=
  ((errFree_symTokens _ _ _).append (errFree_padTokens _)).append errFree_eofToken

theorem finishFrame_eq_endTokens (s : State) :
    finishFrame s =
      { s with fopen := false, acc := 0, cnt := 0, nsym := 0, tokenBuf := s.tokenBuf ++ endTokens s } := by
  rw [finishFrame_eq, endTokens, List.append_assoc, List.append_assoc, List.append_assoc]

/-- END after an error closes the frame it would have closed: the tokens and registers are the same (R124, R128). -/
theorem finishFrame_raiseErr (e : ErrCode) (s : State) :
    finishFrame (raiseErr e s) = { finishFrame s with tokenBuf := (raiseErr e s).tokenBuf ++ endTokens s } := by
  rw [finishFrame_eq_endTokens, finishFrame_eq_endTokens]
  rfl

theorem openFrame_emits_errFree (v : Vsel) (s : State) :
    ∃ toks, (openFrame v s).tokenBuf = s.tokenBuf ++ toks ∧ ErrFree toks :=
  ⟨[], (List.append_nil _).symm, .nil⟩

theorem foldByte_emits_errFree (b : Byte) (s : State) :
    ∃ toks, (foldByte b s).tokenBuf = s.tokenBuf ++ toks ∧ ErrFree toks := by
  rw [foldByte_eq]
  exact ⟨_, rfl, errFree_symTokens _ _ _⟩

theorem finishFrame_emits_errFree (s : State) :
    ∃ toks, (finishFrame s).tokenBuf = s.tokenBuf ++ toks ∧ ErrFree toks := by
  rw [finishFrame_eq_endTokens]
  exact ⟨_, rfl, errFree_endTokens s⟩

/-- A performed word raises one error and does nothing else, or it emits no ERR token (R120). -/
theorem perform_raiseErr_or_errFree {w : CmdWord} {s t : State} (h : perform w s = .next t) :
    (∃ e, t = raiseErr e s) ∨ ∃ toks, t.tokenBuf = s.tokenBuf ++ toks ∧ ErrFree toks := by
  rcases perform_effect h with raised | ⟨v, -, rfl⟩ | ⟨b, -, rfl⟩ | ⟨-, rfl⟩
  · exact .inl raised
  · exact .inr (openFrame_emits_errFree v s)
  · exact .inr (foldByte_emits_errFree b s)
  · exact .inr (finishFrame_emits_errFree s)

end Sys2Proof.Machine
end

section
/-! Errors are precise: one ERR token, no register, and the word consumed like any other (60_exceptions.md R120). -/

namespace Sys2Proof.Machine

theorem perform_cmdQueue {w : CmdWord} {s t : State} (h : perform w s = .next t) : t.cmdQueue = s.cmdQueue := by
  obtain ⟨_, ht⟩ := perform_frame h
  rw [ht]

/-- The edge of a ready block with a word offered performs that word (R144, R147). -/
theorem clockEdge_of_offered {w : CmdWord} {ws : List CmdWord} {s : State} (hrst : s.rst = false)
    (hbuf : s.tokenBuf = []) (hqueue : s.cmdQueue = w :: ws) :
    clockEdge s = onNext advancePins (perform w (popCommand s)) := by
  simp [clockEdge, edgeAction, State.outValid, hrst, hbuf, hqueue]

/-- Settles O18: a word that emits an ERR token is one that raised an error, since every other effect is free of them; and
neither the word's rule nor the pins put a taken word back. -/
theorem errorsArePrecise : Obligations.ErrorsArePrecise := by
  constructor
  · intro w s t toks h htoks ⟨x, hx, hkind⟩
    rcases perform_raiseErr_or_errFree h with ⟨e, rfl⟩ | ⟨clean, hclean, hfree⟩
    · exact ⟨e, (List.append_cancel_left htoks).symm, rfl⟩
    · have hsame : clean = toks := List.append_cancel_left (hclean.symm.trans htoks)
      exact absurd hkind (hfree x (hsame ▸ hx))
  · intro w ws s hrst hbuf hqueue
    obtain ⟨t, ht⟩ := perform_next w (popCommand s)
    refine ⟨advancePins t, ?_, ?_⟩
    · rw [step, clockEdge_of_offered hrst hbuf hqueue, ht, onNext]
    · rw [advancePins_cmdQueue, perform_cmdQueue ht, popCommand_cmdQueue, hqueue, List.tail_cons]

end Sys2Proof.Machine
end

section
/-! Which error a word raises, if any (60_exceptions.md R126, R127). -/

namespace Sys2Proof.Machine

/-- The outcome `o` of a command on `s` is a next state, and `errs` are the ERR tokens it emits. -/
def EmitsErrs (o : Host.Outcome State Fault Refusal) (s : State) (errs : List Token) : Prop :=
  ∃ t toks, o = .next t ∧ t.tokenBuf = s.tokenBuf ++ toks ∧ toks.filter (fun x => x.kind = .err) = errs

theorem emitsErrs_of_raiseErr {o : Host.Outcome State Fault Refusal} {s : State} {e : ErrCode}
    (h : o = .next (raiseErr e s)) : EmitsErrs o s [e.token] :=
  ⟨_, [e.token], h, raiseErr_tokenBuf e s, rfl⟩

theorem emitsErrs_of_errFree {o : Host.Outcome State Fault Refusal} {s t : State} (h : o = .next t)
    (emits : ∃ toks, t.tokenBuf = s.tokenBuf ++ toks ∧ ErrFree toks) : EmitsErrs o s [] := by
  obtain ⟨toks, htoks, hfree⟩ := emits
  exact ⟨t, toks, h, htoks, hfree.filter_err⟩

/-- Settles O22: by the decoded word and FOPEN, each of the rule's rows is an error raised or an effect with no ERR token. -/
theorem errorPriority : Obligations.ErrorPriority := by
  intro w s
  rcases perform_cases w s with ⟨i, hdecode, hperform⟩ | ⟨_, hdecode, hperform⟩ <;> rw [hdecode, hperform]
  · cases hopen : s.fopen with
    | false =>
      cases i with
      | byte b => exact emitsErrs_of_raiseErr (exec_byte_of_idle hopen b)
      | start v => exact emitsErrs_of_errFree (exec_start_of_idle hopen v) (openFrame_emits_errFree v s)
      | startn v => exact emitsErrs_of_raiseErr (exec_startn_of_idle hopen v)
      | endFrame => exact emitsErrs_of_raiseErr (exec_end_of_idle hopen)
    | true =>
      cases i with
      | byte b => exact emitsErrs_of_errFree (exec_byte_of_open hopen b) (foldByte_emits_errFree b s)
      | start v => exact emitsErrs_of_raiseErr (exec_start_of_open hopen v)
      | startn v => exact emitsErrs_of_raiseErr (exec_startn_of_open hopen v)
      | endFrame => exact emitsErrs_of_errFree (exec_end_of_open hopen) (finishFrame_emits_errFree s)
  · exact emitsErrs_of_raiseErr rfl

end Sys2Proof.Machine
end

section
/-! NO_FRAME, FRAME_OPEN and RESERVED one by one (60_exceptions.md R123 to R125). -/

namespace Sys2Proof.Machine

/-- Settles O19: both commands raise NO_FRAME on an idle block. -/
theorem byteOrEndInIdleIsNoFrame : Obligations.ByteOrEndInIdleIsNoFrame :=
  fun b _ h => ⟨exec_byte_of_idle h b, exec_end_of_idle h⟩

/-- Settles O20: both commands raise FRAME_OPEN, and END does the same before and after a raised error. -/
theorem startInAFrameIsFrameOpen : Obligations.StartInAFrameIsFrameOpen := by
  intro v s h t
  have stillOpen : t.fopen = true := h
  refine ⟨exec_start_of_open h v, exec_startn_of_open h v, finishFrame s, endTokens s, exec_end_of_open h, ?_, ?_, ?_⟩
  · rw [finishFrame_eq_endTokens]
  · rw [finishFrame_eq_endTokens]
  · exact (exec_end_of_open stillOpen).trans (congrArg _ (finishFrame_raiseErr .frameOpen s))

/-- Settles O21: a word that decodes as reserved raises RESERVED whatever FOPEN is. -/
theorem reservedWordsChangeNothing : Obligations.ReservedWordsChangeNothing :=
  fun _ s ⟨_, h⟩ => perform_of_reserved h s

end Sys2Proof.Machine
end

section
/-! The words of the commands as numbers, the two directions of the encoding, and the opcode map as intervals of words
(30_encoding.md R61 to R65). -/

namespace Sys2Proof

/-- Settles O1: `decode_encode`, which goes through the four formats. -/
theorem decodeInvertsEncode : Obligations.DecodeInvertsEncode := decode_encode

theorem encode_byte_toNat (b : Byte) : (encode (.byte b)).toNat = b.toNat := by
  rw [encode, BitVec.toNat_append, BitVec.toNat_zero, Nat.zero_shiftLeft, Nat.zero_or]

theorem encode_start_toNat (v : Vsel) : (encode (.start v)).toNat = 0x100 + v.toNat := by
  revert v; decide

theorem encode_startn_toNat (v : Vsel) : (encode (.startn v)).toNat = 0x200 + v.toNat := by
  revert v; decide

/-- A word whose reserved bits are zero is its OP and the VSEL operand. -/
theorem toNat_of_upperData_eq_zero {w : CmdWord} {op : BitVec 3} (hop : opField w = op)
    (hupper : upperData (dataField w) = 0#5) : w.toNat = op.toNat * 256 + (vselData (dataField w)).toNat := by
  rw [opField_eq_iff] at hop
  rw [upperData_eq_zero_iff] at hupper
  rw [vselData_eq_ofNat, dataField_toNat, BitVec.toNat_ofNat]
  omega

/-- Settles O2: `Decode` reads the command's operand from DATA, and OP and the reserved bits are the command's own. -/
theorem encodeInvertsDecode : Obligations.EncodeInvertsDecode := by
  intro w i h
  cases i with
  | byte b =>
    have hop := decode_eq_byte_iff.mp ⟨b, h⟩
    rw [decode_of_op_byte hop] at h
    cases h
    rw [encode, ← hop, opField_append_dataField]
  | start v =>
    obtain ⟨hop, hupper⟩ := decode_eq_start_iff.mp ⟨v, h⟩
    rw [decode_of_op_start hop, if_pos hupper] at h
    cases h
    apply BitVec.eq_of_toNat_eq
    rw [encode_start_toNat, toNat_of_upperData_eq_zero hop hupper]
    rfl
  | startn v =>
    obtain ⟨hop, hupper⟩ := decode_eq_startn_iff.mp ⟨v, h⟩
    rw [decode_of_op_startn hop, if_pos hupper] at h
    cases h
    apply BitVec.eq_of_toNat_eq
    rw [encode_startn_toNat, toNat_of_upperData_eq_zero hop hupper]
    rfl
  | endFrame =>
    obtain ⟨hop, hdata⟩ := decode_eq_endFrame_iff.mp h
    rw [← opField_append_dataField w, hop, hdata, encode]

/-- The words of a row of the opcode map are those from `lo` up to `hi`, `hi` excluded. -/
def OpRow.IsInterval (r : OpRow) (lo hi : Nat) : Prop := ∀ w, r.holds w = true ↔ lo ≤ w.toNat ∧ w.toNat < hi

theorem byteRow_isInterval : (Instr.byte 0).row.IsInterval 0 256 := by
  intro w
  have hmask : (Instr.byte 0).row.holds w = true ↔ opField w = 0#3 :=
    beq_iff_eq.trans (and_maskB_eq_iff 0#3)
  rw [hmask, opField_eq_iff, BitVec.toNat_zero]
  omega

/-- A row of format V has eight words, one for each operand. -/
theorem isInterval_of_maskV (mnemonic : String) (op : BitVec 3) :
    (OpRow.mk mnemonic (op ++ 0#8) 0x7F8#11).IsInterval (op.toNat * 256) (op.toNat * 256 + 8) := by
  intro w
  rw [OpRow.holds, beq_iff_eq, and_maskV_eq_iff, opField_eq_iff, upperData_eq_zero_iff]
  omega

theorem startRow_isInterval : (Instr.start 0).row.IsInterval 0x100 0x108 := isInterval_of_maskV "START" 1#3

theorem startnRow_isInterval : (Instr.startn 0).row.IsInterval 0x200 0x208 := isInterval_of_maskV "STARTN" 2#3

theorem endRow_isInterval : Instr.endFrame.row.IsInterval 0x300 0x301 := by
  intro w
  have hmask : Instr.endFrame.row.holds w = true ↔ opField w = 3#3 ∧ dataField w = 0#8 :=
    beq_iff_eq.trans (and_maskZ_eq_iff 3#3)
  rw [hmask, opField_eq_iff, dataField_eq_zero_iff, show (3#3).toNat = 3 from rfl]
  omega

/-- The mask of the reserved opcodes keeps the top bit alone. -/
theorem and_maskReserved_eq_iff {w : CmdWord} : w &&& 0x400#11 = 0x400#11 ↔ 1024 ≤ w.toNat := by
  have htop : w &&& 0x400#11 = 0x400#11 ↔ w.msb = true := by
    rw [BitVec.msb_eq_getLsbD_last]
    constructor
    · intro h
      simpa using congrArg (fun x => x.getLsbD 10) h
    · intro h
      apply BitVec.eq_of_getLsbD_eq
      intro i hi
      interval_cases i <;> simp [h]
  rw [htop, BitVec.msb_eq_decide, decide_eq_true_iff]

theorem reservedRow_isInterval : reservedRow.IsInterval 0x400 2048 := by
  intro w
  have := w.isLt
  rw [show reservedRow.holds w = true ↔ 1024 ≤ w.toNat from beq_iff_eq.trans and_maskReserved_eq_iff]
  omega

theorem decode_eq_reserved_opcode_iff {w : CmdWord} : decode w = .reserved .opcode ↔ 1024 ≤ w.toNat := by
  constructor
  · intro h
    simp only [decode] at h
    split_ifs at h with hbyte hstart _ hstartn _ hend <;> cases h
    simp only [opField_eq_iff, BitVec.toNat_ofNat] at hbyte hstart hstartn hend
    omega
  · intro h
    exact decode_of_op_reserved (by rw [opField_toNat]; omega)

theorem OpRow.IsInterval.disjoint {r r' : OpRow} {lo hi lo' hi' : Nat} (h : r.IsInterval lo hi)
    (h' : r'.IsInterval lo' hi') (hlt : hi ≤ lo') (w : CmdWord) (hw : r.holds w = true) : r'.holds w = false := by
  rw [← Bool.not_eq_true, h' w]
  have := (h w).mp hw
  omega

theorem OpRow.IsInterval.count {r : OpRow} {lo hi : Nat} (h : r.IsInterval lo hi) (hhi : hi ≤ 2048) :
    ((List.range 2048).filter (fun n => r.holds (BitVec.ofNat 11 n))).length = hi - lo := by
  have hmem (n : Nat) (hn : n < 2048) : r.holds (BitVec.ofNat 11 n) = (decide (lo ≤ n) && decide (n < hi)) := by
    rw [← Bool.decide_and, Bool.eq_iff_iff, h, decide_eq_true_iff, BitVec.toNat_ofNat, Nat.mod_eq_of_lt hn]
  rw [List.filter_congr fun n hn => hmem n (List.mem_range.mp hn), ← List.filter_filter, ← List.Ico.zero_bot,
    List.Ico.filter_lt, List.Ico.filter_le, List.Ico.length, Nat.zero_max, Nat.min_eq_right hhi]

/-- Settles O4: each mask test is the test of the fields, and the rows are intervals of words in ascending order. -/
theorem opcodeMapIsExact : Obligations.OpcodeMapIsExact := by
  refine ⟨fun w => ⟨?byte, ?start, ?startn, ?endFrame, ?reserved⟩, ?disjoint, ?counts⟩
  case byte => exact decode_eq_byte_iff.trans (and_maskB_eq_iff 0b000#3).symm
  case start => exact decode_eq_start_iff.trans (and_maskV_eq_iff 0b001#3).symm
  case startn => exact decode_eq_startn_iff.trans (and_maskV_eq_iff 0b010#3).symm
  case endFrame => exact decode_eq_endFrame_iff.trans (and_maskZ_eq_iff 0b011#3).symm
  case reserved => exact decode_eq_reserved_opcode_iff.trans and_maskReserved_eq_iff.symm
  case disjoint =>
    simp only [opcodeMap, List.pairwise_cons, List.forall_mem_cons, List.not_mem_nil, false_implies, implies_true,
      and_true]
    have byte := byteRow_isInterval
    have start := startRow_isInterval
    have startn := startnRow_isInterval
    have endFrame := endRow_isInterval
    have reserved := reservedRow_isInterval
    exact ⟨⟨byte.disjoint start le_rfl, byte.disjoint startn (by decide), byte.disjoint endFrame (by decide),
        byte.disjoint reserved (by decide)⟩,
      ⟨start.disjoint startn (by decide), start.disjoint endFrame (by decide), start.disjoint reserved (by decide)⟩,
      ⟨startn.disjoint endFrame (by decide), startn.disjoint reserved (by decide)⟩,
      endFrame.disjoint reserved (by decide), trivial, List.Pairwise.nil⟩
  case counts =>
    simp only [opcodeMap, List.map_cons, List.map_nil]
    rw [byteRow_isInterval.count (by decide), startRow_isInterval.count (by decide),
      startnRow_isInterval.count (by decide), endRow_isInterval.count (by decide), reservedRow_isInterval.count le_rfl]

/-- Settles O5: eleven closed computations of `Decode`, and a list of them. -/
theorem listedWordsDecode : Obligations.ListedWordsDecode := by
  unfold Obligations.ListedWordsDecode
  decide

end Sys2Proof
end

section
/-! Token words (30_encoding.md R66) and the characters of the ROM (10_state.md R29, R31). -/

namespace Sys2Proof.Machine

theorem token_word_toNat (t : Token) : t.word.toNat = t.kind.bits.toNat * 256 + t.data.toNat := by
  rw [Token.word, BitVec.toNat_append, ← Nat.shiftLeft_add_eq_or_of_lt t.data.isLt, Nat.shiftLeft_eq]

theorem tokenKind_bits_injective : Function.Injective TokenKind.bits := by
  intro k k' h
  revert h
  cases k <;> cases k' <;> decide

/-- KIND and DATA are read back from a token's word. -/
theorem token_word_injective : Function.Injective Token.word := by
  rintro ⟨k, d⟩ ⟨k', d'⟩ h
  have hkind : k.bits = k'.bits := by
    simpa only [Token.word, BitVec.extractLsb'_append_eq_left] using congrArg (BitVec.extractLsb' 8 2) h
  have hdata : d = d' := by
    simpa only [Token.word, BitVec.extractLsb'_append_eq_right] using congrArg (BitVec.extractLsb' 0 8) h
  rw [tokenKind_bits_injective hkind, hdata]

/-- Settles O6: a token's word is `256 * KIND + DATA`. -/
theorem tokenWordsAreLaidOut : Obligations.TokenWordsAreLaidOut := by
  refine ⟨fun c => ?_, rfl, rfl, fun e => ?_, fun _ _ h => token_word_injective h⟩
  · simp [token_word_toNat, TokenKind.bits]
  · simp [token_word_toNat, TokenKind.bits, ErrCode.token]

/-- Settles O7: the tables, evaluated. -/
theorem romHoldsTheAlphabets : Obligations.RomHoldsTheAlphabets := by
  unfold Obligations.RomHoldsTheAlphabets
  exact ⟨by decide, by decide, by decide, by decide, rfl, by decide, by decide, rfl⟩

/-- Under every variant but ZBase32 the table has no character twice. -/
theorem romRead_hw_injective {v : Vsel} (hv : v ≠ 2) : Function.Injective (romRead Config.hw.rom v) := by
  have hnodup : (romTable Config.hw.rom v).toList.Nodup := by revert v; decide
  intro i j h
  have hget : (romTable Config.hw.rom v).toList[i.toNat]'(by simpa using i.isLt) =
      (romTable Config.hw.rom v).toList[j.toNat]'(by simpa using j.isLt) := by
    simpa [romRead, Vector.get_eq_getElem] using h
  exact BitVec.eq_of_toNat_eq (hnodup.getElem_inj_iff.mp hget)

/-- The one pair of indices that ZBase32 gives one character, `8`. -/
theorem romRead_hw_zbase32_eq : ∀ i j : Idx, romRead Config.hw.rom 2 i = romRead Config.hw.rom 2 j → i ≠ j →
    ((i = 7 ∧ j = 31) ∨ (i = 31 ∧ j = 7)) ∧ romRead Config.hw.rom 2 i = 0x38 := by
  decide

/-- Settles O8: seven tables are injective, and ZBase32 has the one pair. -/
theorem onlyZBase32HasADuplicate : Obligations.OnlyZBase32HasADuplicate := by
  intro v i j h hij
  by_cases hv : v = 2
  · subst hv
    exact ⟨rfl, romRead_hw_zbase32_eq i j h hij⟩
  · exact absurd (romRead_hw_injective hv h) hij

end Sys2Proof.Machine
end

section
/-! What one step does, said once: the five kinds of edge as equations and as one inversion lemma, and what a property
must stand to be kept by every step (70_reset_and_hazards.md R140 to R149). -/

namespace Sys2Proof.Machine

theorem clockEdge_of_reset {s : State} (hrst : s.rst = true) : clockEdge s = .next (advancePins (resetBlock s)) := by
  simp [clockEdge, edgeAction, hrst]

theorem clockEdge_of_transfer {s : State} (hrst : s.rst = false) (hbuf : s.tokenBuf ≠ []) (hready : s.outReady = true) :
    clockEdge s = .next (advancePins (transferToken s)) := by
  simp [clockEdge, edgeAction, State.outValid, hrst, hbuf, hready]

theorem clockEdge_of_hold {s : State} (hrst : s.rst = false) (hbuf : s.tokenBuf ≠ []) (hready : s.outReady = false) :
    clockEdge s = .next (advancePins s) := by
  simp [clockEdge, edgeAction, State.outValid, hrst, hbuf, hready]

theorem clockEdge_of_idle {s : State} (hrst : s.rst = false) (hbuf : s.tokenBuf = []) (hqueue : s.cmdQueue = []) :
    clockEdge s = .next (advancePins s) := by
  simp [clockEdge, edgeAction, State.outValid, hrst, hbuf, hqueue]

theorem clockEdge_of_performed {w : CmdWord} {ws : List CmdWord} {s u : State} (hrst : s.rst = false)
    (hbuf : s.tokenBuf = []) (hqueue : s.cmdQueue = w :: ws) (hu : perform w (popCommand s) = .next u) :
    clockEdge s = .next (advancePins u) := by
  rw [clockEdge_of_offered hrst hbuf hqueue, hu, onNext]

theorem popCommand_of_cons {w : CmdWord} {ws : List CmdWord} {s : State} (h : s.cmdQueue = w :: ws) :
    popCommand s = { s with cmdQueue := ws } := by
  simp [popCommand, h]

theorem clockEdge_next (s : State) : ∃ t, clockEdge s = .next t := by
  rcases clockEdge_cases s with ⟨_, h⟩ | ⟨_, _, _, h⟩ | ⟨_, _, _, h⟩ | ⟨w, _, _, _, _, h⟩ | ⟨_, _, _, h⟩
  case inr.inr.inr.inl =>
    obtain ⟨u, hu⟩ := perform_next w (popCommand s)
    rw [hu] at h
    exact ⟨_, h⟩
  all_goals exact ⟨_, h⟩

/-- What one edge does to the block before the levels of the next edge are set. -/
inductive EdgeEffect (s : State) : State → Prop where
  | reset : s.rst = true → EdgeEffect s (resetBlock s)
  | transfer : s.rst = false → s.tokenBuf ≠ [] → s.outReady = true → EdgeEffect s (transferToken s)
  | hold : s.rst = false → s.tokenBuf ≠ [] → s.outReady = false → EdgeEffect s s
  | command {w ws u} : s.rst = false → s.tokenBuf = [] → s.cmdQueue = w :: ws → perform w (popCommand s) = .next u →
      EdgeEffect s u
  | idle : s.rst = false → s.tokenBuf = [] → s.cmdQueue = [] → EdgeEffect s s

/-- A step is one of the five effects, then the levels of the next edge. -/
theorem step_effect {s t : State} (h : step s = .next t) : ∃ u, EdgeEffect s u ∧ t = advancePins u := by
  unfold step at h
  rcases clockEdge_cases s with ⟨hr, e⟩ | ⟨hr, hb, ho, e⟩ | ⟨hr, hb, ho, e⟩ | ⟨w, ws, hr, hb, hq, e⟩ | ⟨hr, hb, hq, e⟩
  · cases e.symm.trans h; exact ⟨_, .reset hr, rfl⟩
  · cases e.symm.trans h; exact ⟨_, .transfer hr hb ho, rfl⟩
  · cases e.symm.trans h; exact ⟨_, .hold hr hb ho, rfl⟩
  · obtain ⟨u, hu⟩ := perform_next w (popCommand s)
    rw [hu] at e
    cases e.symm.trans h
    exact ⟨u, .command hr hb hq hu, rfl⟩
  · cases e.symm.trans h; exact ⟨_, .idle hr hb hq, rfl⟩

/-- A property that reset, a transfer, a performed word on an empty buffer and the moves of the ports keep is kept by
every step. -/
theorem step_keeps {P : State → Prop} (reset : ∀ s, P s → P (resetBlock s)) (transfer : ∀ s, P s → P (transferToken s))
    (pop : ∀ s, P s → P (popCommand s)) (pins : ∀ s, P s → P (advancePins s))
    (command : ∀ w s t, s.tokenBuf = [] → perform w s = .next t → P s → P t) {s t : State} (h : step s = .next t)
    (hs : P s) : P t := by
  obtain ⟨u, hu, rfl⟩ := step_effect h
  apply pins u
  cases hu with
  | reset => exact reset s hs
  | transfer => exact transfer s hs
  | hold => exact hs
  | command _ hbuf _ hperform => exact command _ (popCommand s) _ hbuf hperform (pop s hs)
  | idle => exact hs

end Sys2Proof.Machine
end

section
/-! The ports and the edges one by one (70_reset_and_hazards.md R140, R144, R146, R147; 60_exceptions.md R127, R135). -/

namespace Sys2Proof.Machine

/-- Settles O27: a step is one clock edge, and every kind of edge answers. -/
theorem everyEdgeAnswersANextState : Obligations.EveryEdgeAnswersANextState := clockEdge_next

/-- Settles O28: the edge of a ready block, with `perform` read by the decoded word. -/
theorem stepRunsTheOfferedCommand : Obligations.StepRunsTheOfferedCommand := by
  intro w ws s hrst hbuf hqueue
  have hstep : step s = onNext advancePins (perform w { s with cmdQueue := ws }) := by
    rw [step, clockEdge_of_offered hrst hbuf hqueue, popCommand_of_cons hqueue]
  constructor
  · intro i hi
    rw [hstep, perform, hi]
  · intro why hwhy
    rw [hstep, perform_of_reserved hwhy]
    simp [onNext, raiseErr, emit, hbuf, ErrCode.code]

theorem decode_of_decodeTableWord {nbits w : Nat} {i : Instr} (h : decodeTableWord nbits w = some i) :
    decode (BitVec.ofNat 11 (w % 2 ^ nbits)) = .command i := by
  unfold decodeTableWord at h
  dsimp only at h
  split_ifs at h
  split at h <;> cases h
  assumption

/-- Settles O29: `offerWord` makes the block ready with the word at the queue's head, and taking it leaves the rest. -/
theorem fetchWordRunsNext : Obligations.FetchWordRunsNext := by
  intro nbits w i s h
  have hdecode := decode_of_decodeTableWord h
  rw [State.withFetchWord, step, clockEdge_of_offered rfl rfl rfl, perform, hdecode]
  rfl

/-- Settles O30: the fields of the one reset state. -/
theorem resetValues : Obligations.ResetValues := ⟨rfl, rfl, rfl, rfl, rfl, rfl, rfl⟩

/-- Settles O31: the edge is `resetBlock`, and the record only moves. -/
theorem resetEdge : Obligations.ResetEdge := by
  intro s hrst
  refine ⟨by simp [State.cmdReady, hrst], by simp [State.outValid, hrst], _, clockEdge_of_reset hrst, ?_⟩
  simp [State.reset]

/-- Settles O32: the ports by `rst` and the buffer, and the two edges that offer a token. -/
theorem tokensTransferOldestFirst : Obligations.TokensTransferOldestFirst := by
  intro s hrst
  have hvalid : s.outValid = true ↔ s.tokenBuf ≠ [] := by simp [State.outValid, hrst]
  refine ⟨hvalid, fun tok rest hbuf => ?_⟩
  have hne : s.tokenBuf ≠ [] := by simp [hbuf]
  refine ⟨?_, fun hready => ?_, fun hready => clockEdge_of_hold hrst hne hready⟩
  · simp [State.outToken, hvalid.mpr hne, hbuf]
  · rw [step, clockEdge_of_transfer hrst hne hready]
    simp [transferToken, hbuf]

theorem cmdReady_iff {s : State} : s.cmdReady = true ↔ s.rst = false ∧ s.tokenBuf = [] := by
  simp [State.cmdReady]

/-- Settles O33: only the edge that performs a word takes one off the queue, and that is the edge of a ready block. -/
theorem commandReadyWhenDrained : Obligations.CommandReadyWhenDrained := by
  refine fun s => ⟨cmdReady_iff, fun t w ws hqueue hstep => ?_⟩
  obtain ⟨u, hu, rfl⟩ := step_effect hstep
  rw [advancePins_cmdQueue]
  cases hu with
  | reset hrst => simp [cmdReady_iff, hrst, hqueue]
  | transfer _ hbuf => simp [cmdReady_iff, hbuf, hqueue]
  | hold _ hbuf => simp [cmdReady_iff, hbuf, hqueue]
  | command hrst hbuf hq hperform => simp [perform_cmdQueue hperform, cmdReady_iff, hrst, hbuf, hqueue]
  | idle _ _ hempty => simp [hempty] at hqueue

/-- Settles O34: the idle edge. -/
theorem idleEdgeKeepsTheState : Obligations.IdleEdgeKeepsTheState := fun _ => clockEdge_of_idle

/-! ### A consumer that never accepts (R149) -/

theorem advancePins_of_held {s : State} (hrst : s.rst = false) (hready : s.outReady = false)
    (hedges : ∀ e ∈ s.edges, e.rst = false ∧ e.outReady = false) :
    advancePins s = { s with edges := s.edges.tail } := by
  cases hs : s.edges with
  | nil => rw [advancePins_of_nil hs, List.tail_nil, ← hs]
  | cons e es =>
    obtain ⟨he, he'⟩ := hedges e (by simp [hs])
    rw [advancePins_of_cons hs, List.tail_cons, he.trans hrst.symm, he'.trans hready.symm]

/-- While the consumer holds, edges use up the schedule and do nothing else. -/
theorem runEdges_of_held (n : Nat) {s : State} (hrst : s.rst = false) (hready : s.outReady = false)
    (hbuf : s.tokenBuf ≠ []) (hedges : ∀ e ∈ s.edges, e.rst = false ∧ e.outReady = false) :
    runEdges n s = .next { s with edges := s.edges.drop n } := by
  induction n generalizing s with
  | zero => rfl
  | succ n ih =>
    have later : ∀ e ∈ s.edges.tail, e.rst = false ∧ e.outReady = false :=
      fun e he => hedges e (List.mem_of_mem_tail he)
    simp only [runEdges, clockEdge_of_hold hrst hbuf hready, advancePins_of_held hrst hready hedges]
    rw [ih (s := { s with edges := s.edges.tail }) hrst hready hbuf later, List.drop_tail]

/-- Settles O35: only the schedule is different after the edges. -/
theorem consumerCanHang : Obligations.ConsumerCanHang := by
  intro n s hrst hready hbuf hedges
  refine ⟨_, runEdges_of_held n hrst hready hbuf hedges, ?_, rfl, rfl, rfl, rfl, rfl, rfl, rfl, rfl⟩
  rw [← Bool.not_eq_true, cmdReady_iff]
  exact fun h => hbuf h.2

/-! ### The observed stream (20_memory.md R47, 60_exceptions.md R129) -/

@[simp] theorem advancePins_stream (s : State) : (advancePins s).stream = s.stream := by
  simp [State.stream]

@[simp] theorem resetBlock_stream (s : State) : (resetBlock s).stream = [] := rfl

@[simp] theorem transferToken_stream (s : State) : (transferToken s).stream = s.stream := by
  cases h : s.tokenBuf <;> simp [State.stream, h]

/-- A performed word adds the tokens it buffers to the stream. -/
theorem perform_stream {w : CmdWord} {s t : State} (h : perform w s = .next t) :
    ∃ toks, t.tokenBuf = s.tokenBuf ++ toks ∧ t.stream = s.stream ++ toks := by
  obtain ⟨toks, ht⟩ := perform_frame h
  rw [ht]
  exact ⟨toks, rfl, (List.append_assoc _ _ _).symm⟩

/-- Settles O36: of the edges without reset only the one that performs a word makes the stream longer. -/
theorem streamIsTheCommandsTokens : Obligations.StreamIsTheCommandsTokens := by
  intro s t h
  obtain ⟨u, hu, rfl⟩ := step_effect h
  rw [advancePins_stream]
  cases hu with
  | reset hrst => simp [hrst]
  | transfer hrst => exact ⟨by simp [hrst], fun _ => ⟨[], by simp⟩⟩
  | hold hrst => exact ⟨by simp [hrst], fun _ => ⟨[], by simp⟩⟩
  | command hrst hbuf hqueue hperform =>
    obtain ⟨toks, htoks, hstream⟩ := perform_stream hperform
    rw [popCommand_tokenBuf, hbuf, List.nil_append] at htoks
    exact ⟨by simp [hrst], fun _ => ⟨toks, hstream, fun _ => ⟨_, _, _, hbuf, hqueue, hperform, htoks⟩⟩⟩
  | idle hrst => exact ⟨by simp [hrst], fun _ => ⟨[], by simp⟩⟩

/-- Settles O37: the earlier stream is part of the later one. -/
theorem faultRecordIsNeverCleared : Obligations.FaultRecordIsNeverCleared := by
  intro s t h hrst hclean x hx
  obtain ⟨toks, hstream, -⟩ := (streamIsTheCommandsTokens s t h).2 hrst
  exact hclean x (by rw [hstream]; exact List.mem_append_left toks hx)

end Sys2Proof.Machine
end

section
/-! What a command leaves alone and which tokens it emits (10_state.md section 2, 30_encoding.md R67). -/

namespace Sys2Proof.Machine

theorem perform_encode (i : Instr) (s : State) : perform (encode i) s = exec i s := by
  rw [perform, decode_encode]

theorem exec_next (i : Instr) (s : State) : ∃ t, exec i s = .next t := by
  rw [← perform_encode]
  exact perform_next (encode i) s

@[simp] theorem foldByte_vsel (b : Byte) (s : State) : (foldByte b s).vsel = s.vsel := by
  rw [foldByte_eq]; rfl

@[simp] theorem finishFrame_vsel (s : State) : (finishFrame s).vsel = s.vsel := by
  rw [finishFrame_eq]

@[simp] theorem finishFrame_fopen (s : State) : (finishFrame s).fopen = false := by
  rw [finishFrame_eq]

theorem exec_byte_vsel_fopen {b : Byte} {s t : State} (h : exec (.byte b) s = .next t) :
    t.vsel = s.vsel ∧ t.fopen = s.fopen := by
  cases hopen : s.fopen with
  | false => cases (exec_byte_of_idle hopen b).symm.trans h; simp [hopen]
  | true => cases (exec_byte_of_open hopen b).symm.trans h; simp [hopen]

theorem exec_start_vsel_fopen {v : Vsel} {s t : State} (h : exec (.start v) s = .next t) :
    t.vsel = (if s.fopen then s.vsel else v) ∧ t.fopen = true := by
  cases hopen : s.fopen with
  | false => cases (exec_start_of_idle hopen v).symm.trans h; simp
  | true => cases (exec_start_of_open hopen v).symm.trans h; simp [hopen]

theorem exec_startn_vsel_fopen {v : Vsel} {s t : State} (h : exec (.startn v) s = .next t) :
    t.vsel = s.vsel ∧ t.fopen = s.fopen := by
  cases hopen : s.fopen with
  | false => cases (exec_startn_of_idle hopen v).symm.trans h; simp [hopen]
  | true => cases (exec_startn_of_open hopen v).symm.trans h; simp [hopen]

theorem exec_end_vsel_fopen {s t : State} (h : exec .endFrame s = .next t) : t.vsel = s.vsel ∧ t.fopen = false := by
  cases hopen : s.fopen with
  | false => cases (exec_end_of_idle hopen).symm.trans h; simp [hopen]
  | true => cases (exec_end_of_open hopen).symm.trans h; simp

/-- Settles O24: `perform_frame` for the fields no command writes; VSEL and FOPEN command by command. -/
theorem commandsLeaveTheRestAlone : Obligations.CommandsLeaveTheRestAlone := by
  intro i s
  obtain ⟨t, ht⟩ := exec_next i s
  obtain ⟨toks, hframe⟩ := perform_frame ((perform_encode i s).trans ht)
  rw [State.mk.injEq] at hframe
  obtain ⟨-, -, -, -, -, hrom, hbuf, hrst, hready, hqueue, hedges, hrecord, hbefore⟩ := hframe
  refine ⟨t, toks, ht, hbuf, hrom, hrst, hready, hqueue, hedges, hrecord, hbefore, rfl, ?_⟩
  cases i with
  | byte b => exact exec_byte_vsel_fopen ht
  | start v => exact exec_start_vsel_fopen ht
  | startn v => exact exec_startn_vsel_fopen ht
  | endFrame => exact exec_end_vsel_fopen ht

/-- A token R67 allows a command under a ROM and a VSEL value. -/
def LegalToken (rom : Rom) (vsel : Vsel) (x : Token) : Prop :=
  (∃ idx, x = symToken rom vsel idx) ∨ x = padToken ∨ x = eofToken ∨ ∃ e : ErrCode, x = e.token

theorem legal_symTokens {rom : Rom} {vsel : Vsel} (idxs : List Idx) :
    ∀ x ∈ idxs.map (symToken rom vsel), LegalToken rom vsel x := by
  intro x hx
  obtain ⟨idx, -, rfl⟩ := List.mem_map.mp hx
  exact .inl ⟨idx, rfl⟩

theorem legal_endTokens (s : State) : ∀ x ∈ endTokens s, LegalToken s.rom s.vsel x := by
  intro x hx
  rw [endTokens, List.mem_append, List.mem_append, List.mem_singleton] at hx
  rcases hx with (hsym | hpad) | heof
  · exact legal_symTokens _ x hsym
  · exact .inr (.inl (List.eq_of_mem_replicate hpad))
  · exact .inr (.inr (.inl heof))

/-- The tokens a performed word adds are legal under the state's own ROM and VSEL. -/
theorem perform_tokens_legal {w : CmdWord} {s t : State} (h : perform w s = .next t) :
    ∃ toks, t.tokenBuf = s.tokenBuf ++ toks ∧ ∀ x ∈ toks, LegalToken s.rom s.vsel x := by
  rcases perform_effect h with ⟨e, rfl⟩ | ⟨v, -, rfl⟩ | ⟨b, -, rfl⟩ | ⟨-, rfl⟩
  · refine ⟨[e.token], rfl, fun x hx => ?_⟩
    exact .inr (.inr (.inr ⟨e, List.mem_singleton.mp hx⟩))
  · exact ⟨[], (List.append_nil _).symm, List.forall_mem_nil _⟩
  · rw [foldByte_eq]
    exact ⟨_, rfl, legal_symTokens _⟩
  · rw [finishFrame_eq_endTokens]
    exact ⟨_, rfl, legal_endTokens s⟩

/-- Settles O26: the added tokens are those of `perform_tokens_legal`. -/
theorem tokensOfACommandAreLegal : Obligations.TokensOfACommandAreLegal := by
  intro w s t toks h htoks
  obtain ⟨toks', htoks', hlegal⟩ := perform_tokens_legal h
  rw [List.append_cancel_left (htoks.symm.trans htoks')]
  exact hlegal

end Sys2Proof.Machine
end

section
/-! How many tokens a command emits (70_reset_and_hazards.md R147). -/

namespace Sys2Proof.Machine

/-- BYTE emits one symbol for each whole group of the count. -/
theorem foldByte_tokenBuf (b : Byte) (s : State) :
    ∃ idxs : List Idx, idxs.length = (s.cnt.toNat + 8) / 5 ∧
      (foldByte b s).tokenBuf = s.tokenBuf ++ idxs.map (symToken s.rom s.vsel) := by
  rw [foldByte_eq]
  exact ⟨_, drainIdx_countIn_length _ _, rfl⟩

theorem endTokens_length (s : State) :
    (endTokens s).length =
      (flushIdxs s).length + (8 - (s.nsym.toNat + (flushIdxs s).length) % 8) % 8 + 1 := by
  simp only [endTokens, List.length_append, List.length_map, List.length_replicate, padCount_add_ofNat,
    List.length_singleton]

theorem cnt_le_of_framePairs {c : Cnt} {n : Nsym} (h : (c, n) ∈ framePairs) : c.toNat ≤ 4 := by
  have bound : ∀ p ∈ framePairs, p.1.toNat ≤ 4 := by simp [framePairs]
  exact bound _ h

theorem flushIdxs_length {s : State} (h : s.cnt.toNat ≤ 4) : (flushIdxs s).length = if s.cnt = 0 then 0 else 1 := by
  rw [flushIdxs_of_cnt_le h]
  split_ifs <;> rfl

/-- On the pairs (CNT, NSYM) of a frame, END gives at most 8 tokens. -/
theorem endTokens_length_le {s : State} (h : (s.cnt, s.nsym) ∈ framePairs) : (endTokens s).length ≤ 8 := by
  have bound : ∀ p ∈ framePairs,
      (if p.1 = 0 then 0 else 1) + (8 - (p.2.toNat + if p.1 = 0 then 0 else 1) % 8) % 8 + 1 ≤ 8 := by
    simp [framePairs]
  rw [endTokens_length, flushIdxs_length (cnt_le_of_framePairs h)]
  exact bound _ h

/-- Settles O25: command by command and by FOPEN; an error is one token. -/
theorem tokensPerCommand : Obligations.TokensPerCommand := by
  intro i s hinv
  cases hopen : s.fopen with
  | false =>
    cases i with
    | byte b => exact ⟨_, [_], exec_byte_of_idle hopen b, rfl, by simp, by simp⟩
    | start v => exact ⟨_, [], exec_start_of_idle hopen v, by simp, by simp, by simp⟩
    | startn v => exact ⟨_, [_], exec_startn_of_idle hopen v, rfl, by simp, by simp⟩
    | endFrame => exact ⟨_, [_], exec_end_of_idle hopen, rfl, by simp, by simp⟩
  | true =>
    cases i with
    | byte b =>
      obtain ⟨idxs, hlength, hbuf⟩ := foldByte_tokenBuf b s
      have hcnt := cnt_le_of_framePairs hinv.counts
      refine ⟨_, _, exec_byte_of_open hopen b, hbuf, ?_, ?_⟩ <;> simp only [List.length_map, hlength] <;> omega
    | start v => exact ⟨_, [_], exec_start_of_open hopen v, rfl, by simp, by simp⟩
    | startn v => exact ⟨_, [_], exec_startn_of_open hopen v, rfl, by simp, by simp⟩
    | endFrame =>
      refine ⟨_, endTokens s, exec_end_of_open hopen, ?_, endTokens_length_le hinv.counts, ?_⟩
      · rw [finishFrame_eq_endTokens]
      · simp [endTokens_length]

end Sys2Proof.Machine
end

section
/-! BYTE by the value of CNT, with the indices as bit fields (41_byte.md R91), and END on the counts no run reaches. -/

namespace Sys2Proof.Machine

theorem groupIdx_eq_extractLsb' (a : Acc) (c : BitVec 5) : groupIdx a c = a.extractLsb' c.toNat 5 := by
  rw [groupIdx_eq]
  apply BitVec.eq_of_toNat_eq
  simp [Nat.shiftRight_eq_div_pow]

/-- A group that lies in the new byte. -/
theorem groupIdx_shiftIn_of_byte (acc : Acc) (b : Byte) {c : BitVec 5} (h : c.toNat + 5 ≤ 8) :
    groupIdx (shiftIn acc b) c = b.extractLsb' c.toNat 5 := by
  rw [groupIdx_eq_extractLsb', shiftIn_eq, BitVec.extractLsb'_append_eq_of_add_le h]

/-- A group whose first `k` bits lie in the accumulator, the others in the new byte. -/
theorem groupIdx_shiftIn_of_split (acc : Acc) (b : Byte) {c : BitVec 5} {k : Nat} (hk : 0 < k ∧ k ≤ 4)
    (hc : c.toNat = 3 + k) :
    groupIdx (shiftIn acc b) c = (acc.extractLsb' 0 k ++ b.extractLsb' (3 + k) (5 - k)).cast (by omega) := by
  obtain ⟨hpos, hle⟩ := hk
  rw [groupIdx_eq_extractLsb', shiftIn_eq, hc]
  apply BitVec.eq_of_getLsbD_eq
  intro i hi
  simp only [BitVec.getLsbD_extractLsb', BitVec.getLsbD_append, BitVec.getLsbD_cast, hi, decide_true, Bool.true_and]
  by_cases hbyte : i < 5 - k
  · simp [hbyte, show 3 + k + i < 8 by omega]
  · have hdepth : 3 + k + i - 8 = i - (5 - k) := by omega
    simp [hbyte, show ¬ 3 + k + i < 8 by omega, hdepth, show i - (5 - k) < 4 by omega, show i - (5 - k) < k by omega]

theorem foldByte_cnt (b : Byte) (s : State) : (foldByte b s).cnt = BitVec.ofNat 4 ((s.cnt.toNat + 8) % 5) := by
  rw [foldByte_eq, writeAcc_cnt, drainCount_countIn]

/-- The tokens and NSYM of BYTE from the indices the drain loop finds. -/
theorem foldByte_of_drainIdx {b : Byte} {s : State} {idxs : List Idx}
    (h : drainIdx drainRounds (shiftIn s.acc b) (countIn s.cnt) = idxs) :
    (foldByte b s).nsym = s.nsym + BitVec.ofNat 3 idxs.length ∧
      (foldByte b s).tokenBuf = s.tokenBuf ++ idxs.map (symToken s.rom s.vsel) := by
  rw [foldByte_eq, h]
  exact ⟨rfl, rfl⟩

/-- Settles O14: in each row the drain loop finds one or two groups, each in the new byte or split between ACC
and it. -/
theorem byteTableByCount : Obligations.ByteTableByCount := by
  intro b s hopen _
  have inByte {c : BitVec 5} (h : c.toNat + 5 ≤ 8) := groupIdx_shiftIn_of_byte s.acc b h
  have split {c : BitVec 5} {k : Nat} (hk : 0 < k ∧ k ≤ 4) (h : c.toNat = 3 + k) :=
    groupIdx_shiftIn_of_split s.acc b hk h
  have row {c : Cnt} {idxs : List Idx} (h : s.cnt = c)
      (hidxs : drainIdx drainRounds (shiftIn s.acc b) (countIn c) = idxs) :
      (foldByte b s).cnt = BitVec.ofNat 4 ((c.toNat + 8) % 5) ∧
        (foldByte b s).nsym = s.nsym + BitVec.ofNat 3 idxs.length ∧
          (foldByte b s).tokenBuf = s.tokenBuf ++ idxs.map (symToken s.rom s.vsel) := by
    subst h
    exact ⟨foldByte_cnt b s, foldByte_of_drainIdx hidxs⟩
  refine ⟨_, exec_byte_of_open hopen b, ?acc, (foldByte_fopen b s).trans hopen, foldByte_vsel b s, ?_⟩
  case acc => rw [foldByte_eq, writeAcc_acc, shiftIn_eq]
  refine ⟨fun h => ?_, fun h => ?_, fun h => ?_, fun h => ?_, fun h => ?_⟩
  · exact row h (idxs := [b.extractLsb' 3 5])
      (congrArg₂ List.cons (inByte (c := 3#5) (by decide)) rfl)
  · exact row h (idxs := [s.acc.extractLsb' 0 1 ++ b.extractLsb' 4 4])
      (congrArg₂ List.cons (split (c := 4#5) (k := 1) (by decide) rfl) rfl)
  · exact row h (idxs := [s.acc.extractLsb' 0 2 ++ b.extractLsb' 5 3, b.extractLsb' 0 5])
      (congrArg₂ (fun i j => [i, j]) (split (c := 5#5) (k := 2) (by decide) rfl) (inByte (c := 0#5) (by decide)))
  · exact row h (idxs := [s.acc.extractLsb' 0 3 ++ b.extractLsb' 6 2, b.extractLsb' 1 5])
      (congrArg₂ (fun i j => [i, j]) (split (c := 6#5) (k := 3) (by decide) rfl) (inByte (c := 1#5) (by decide)))
  · exact row h (idxs := [s.acc.extractLsb' 0 4 ++ b.extractLsb' 7 1, b.extractLsb' 2 5])
      (congrArg₂ (fun i j => [i, j]) (split (c := 7#5) (k := 4) (by decide) rfl) (inByte (c := 2#5) (by decide)))

/-! ### END on a CNT of 5 to 15 (93_implementation_defined.md section 1, log entry 9) -/

theorem flushIdx_of_five (acc : Acc) : flushIdx acc 5 = acc.extractLsb' 0 5 := by
  rw [flushIdx, show (5#4 - 5).toNat = 0 from rfl, BitVec.shiftLeft_zero]
  apply BitVec.eq_of_getLsbD_eq
  intro i hi
  interval_cases i <;> simp

/-- Above 5 the shift, taken modulo 16, clears the index. -/
theorem flushIdx_of_gt (acc : Acc) {c : Cnt} (h : 6 ≤ c.toNat) : flushIdx acc c = 0 := by
  have hshift : 5 ≤ (5#4 - c).toNat := by revert c; decide
  rw [flushIdx]
  generalize (5#4 - c).toNat = shift at hshift
  apply BitVec.eq_of_getLsbD_eq
  intro i hi
  simp [show i < shift by omega]

/-- Settles O16: the closed frame with the index of the flush on these counts. -/
theorem endOnUnreachedCounts : Obligations.EndOnUnreachedCounts := by
  intro s hopen hcnt
  have hflush : flushIdxs s = [flushIdx s.acc s.cnt] := if_pos (by bv_omega)
  refine ⟨flushIdx s.acc s.cnt, fun h => ?_, flushIdx_of_gt s.acc, ?_⟩
  · rw [show s.cnt = 5 from BitVec.eq_of_toNat_eq h, flushIdx_of_five]
  · rw [exec_end_of_open hopen, finishFrame_eq, hflush, padCount_add_ofNat]
    rfl

end Sys2Proof.Machine
end

section
/-! CNT is at most 4, and an idle accumulator is clear (10_state.md R26, R27). -/

namespace Sys2Proof.Machine

theorem foldByte_cnt_toNat (b : Byte) (s : State) : (foldByte b s).cnt.toNat = (s.cnt.toNat + 8) % 5 := by
  rw [foldByte_cnt, BitVec.toNat_ofNat]
  omega

theorem perform_cnt_le {w : CmdWord} {s t : State} (h : perform w s = .next t) (hs : s.cnt.toNat ≤ 4) :
    t.cnt.toNat ≤ 4 := by
  rcases perform_effect h with ⟨e, rfl⟩ | ⟨v, -, rfl⟩ | ⟨b, -, rfl⟩ | ⟨-, rfl⟩
  · exact hs
  · exact Nat.zero_le 4
  · rw [foldByte_cnt_toNat]
    omega
  · rw [finishFrame_eq]
    exact Nat.zero_le 4

/-- Settles O42: only BYTE leaves another count, a remainder modulo 5. -/
theorem countStaysAtMostFour : Obligations.CountStaysAtMostFour := by
  intro s t hs h
  refine step_keeps (P := fun s => s.cnt.toNat ≤ 4) ?reset ?transfer ?pop ?pins ?command h hs
  case reset => exact fun _ _ => Nat.zero_le 4
  case transfer => exact fun _ h => h
  case pop => exact fun _ h => h
  case pins =>
    intro s h
    rwa [advancePins_cnt]
  case command => exact fun _ _ _ _ => perform_cnt_le

/-- R27: with no frame open ACC, CNT and NSYM are 0. -/
def IdleClear (s : State) : Prop := s.fopen = false → s.acc = 0 ∧ s.cnt = 0 ∧ s.nsym = 0

theorem IdleClear.advancePins {s : State} (h : IdleClear s) : IdleClear (advancePins s) := by
  simpa [IdleClear] using h

/-- An error leaves the registers, START and BYTE a frame open, END clear registers. -/
theorem IdleClear.perform {w : CmdWord} {s t : State} (h : perform w s = .next t) (hs : IdleClear s) : IdleClear t := by
  rcases perform_effect h with ⟨e, rfl⟩ | ⟨v, -, rfl⟩ | ⟨b, hopen, rfl⟩ | ⟨-, rfl⟩
  · exact hs
  · simp [IdleClear]
  · simp [IdleClear, hopen]
  · rw [finishFrame_eq]
    exact fun _ => ⟨rfl, rfl, rfl⟩

/-- Settles O43: `IdleClear.perform` for the words; no other edge but reset writes the registers, and reset clears them. -/
theorem idleAccumulatorStaysClear : Obligations.IdleAccumulatorStaysClear := by
  intro s t hs h
  refine step_keeps (P := IdleClear) ?reset ?transfer ?pop ?pins ?command h hs
  case reset => exact fun _ _ _ => ⟨rfl, rfl, rfl⟩
  case transfer => exact fun _ h => h
  case pop => exact fun _ h => h
  case pins => exact fun _ h => h.advancePins
  case command => exact fun _ _ _ _ => IdleClear.perform

end Sys2Proof.Machine
end

section
/-! The invariant at reset and under every step (10_state.md section 3; 30_encoding.md R67; 70_reset_and_hazards.md
R147). -/

namespace Sys2Proof.Machine

theorem romTable_mem (rom : Rom) (v : Vsel) :
    romTable rom v ∈ [rom.rfc4648, rom.extHex, rom.zbase32, rom.crockford, rom.geohash, rom.wordsafe] := by
  unfold romTable
  split_ifs <;> simp

theorem holds_romRead (rom : Rom) (v : Vsel) (idx : Idx) : rom.holds (romRead rom v idx) = true := by
  refine List.any_eq_true.mpr ⟨romTable rom v, romTable_mem rom v, ?_⟩
  simp [romRead, Vector.get_eq_getElem]

/-- A legal token of this hardware's ROM is one the block may emit. -/
theorem LegalToken.wf {v : Vsel} {x : Token} (h : LegalToken Config.hw.rom v x) : x.wf = true := by
  rcases h with ⟨idx, rfl⟩ | rfl | rfl | ⟨e, rfl⟩
  · exact holds_romRead _ v idx
  · rfl
  · rfl
  · cases e <;> decide

/-- BYTE leads from one pair of a frame to the next (R101). -/
theorem framePairs_foldByte {b : Byte} {s : State} (h : (s.cnt, s.nsym) ∈ framePairs) :
    ((foldByte b s).cnt, (foldByte b s).nsym) ∈ framePairs := by
  have next : ∀ p ∈ framePairs,
      (BitVec.ofNat 4 ((p.1.toNat + 8) % 5), p.2 + BitVec.ofNat 3 ((p.1.toNat + 8) / 5)) ∈ framePairs := by
    simp [framePairs]
  obtain ⟨hnsym, -⟩ := foldByte_of_drainIdx (b := b) (s := s) rfl
  rw [foldByte_cnt, hnsym, drainIdx_countIn_length]
  exact next _ h

theorem perform_framePairs {w : CmdWord} {s t : State} (h : perform w s = .next t)
    (hs : (s.cnt, s.nsym) ∈ framePairs) : (t.cnt, t.nsym) ∈ framePairs := by
  rcases perform_effect h with ⟨e, rfl⟩ | ⟨v, -, rfl⟩ | ⟨b, -, rfl⟩ | ⟨-, rfl⟩
  · exact hs
  · exact List.mem_cons_self
  · exact framePairs_foldByte hs
  · rw [finishFrame_eq]
    exact List.mem_cons_self

/-- From an empty buffer a performed word leaves at most 8 tokens. -/
theorem perform_tokenBuf_length {w : CmdWord} {s t : State} (h : perform w s = .next t) (hbuf : s.tokenBuf = [])
    (hs : (s.cnt, s.nsym) ∈ framePairs) : t.tokenBuf.length ≤ 8 := by
  rcases perform_effect h with ⟨e, rfl⟩ | ⟨v, -, rfl⟩ | ⟨b, -, rfl⟩ | ⟨-, rfl⟩
  · simp [hbuf]
  · simp [hbuf]
  · obtain ⟨idxs, hlength, hfold⟩ := foldByte_tokenBuf b s
    have hcnt := cnt_le_of_framePairs hs
    rw [hfold, hbuf, List.nil_append, List.length_map, hlength]
    omega
  · rw [finishFrame_eq_endTokens, hbuf]
    exact endTokens_length_le hs

theorem Inv.perform {w : CmdWord} {s t : State} (hbuf : s.tokenBuf = []) (h : perform w s = .next t) (hs : Inv s) :
    Inv t where
  counts := perform_framePairs h hs.counts
  idle := IdleClear.perform h hs.idle
  rom := (perform_rom h).trans hs.rom
  buffer := perform_tokenBuf_length h hbuf hs.counts
  tokens := by
    obtain ⟨toks, htoks, hlegal⟩ := perform_tokens_legal h
    obtain ⟨toks', htoks', hstream⟩ := perform_stream h
    rw [List.append_cancel_left (htoks'.symm.trans htoks)] at hstream
    rw [hs.rom] at hlegal
    intro x hx
    rw [hstream, List.mem_append] at hx
    rcases hx with earlier | added
    · exact hs.tokens x earlier
    · exact (hlegal x added).wf

theorem Inv.resetBlock {s : State} (hs : Inv s) : Inv (resetBlock s) where
  counts := List.mem_cons_self
  idle := fun _ => ⟨rfl, rfl, rfl⟩
  rom := hs.rom
  buffer := Nat.zero_le 8
  tokens := List.forall_mem_nil _

theorem Inv.transferToken {s : State} (hs : Inv s) : Inv (transferToken s) where
  counts := hs.counts
  idle := hs.idle
  rom := hs.rom
  buffer := by
    rw [transferToken_tokenBuf, List.length_tail]
    exact (Nat.sub_le _ 1).trans hs.buffer
  tokens := by
    rw [transferToken_stream]
    exact hs.tokens

theorem Inv.popCommand {s : State} (hs : Inv s) : Inv (popCommand s) :=
  ⟨hs.counts, hs.idle, hs.rom, hs.buffer, hs.tokens⟩

theorem Inv.advancePins {s : State} (hs : Inv s) : Inv (advancePins s) where
  counts := by simpa using hs.counts
  idle := IdleClear.advancePins hs.idle
  rom := by simpa using hs.rom
  buffer := by simpa using hs.buffer
  tokens := by simpa using hs.tokens

/-- Settles O40: an idle block that has emitted nothing. -/
theorem resetMeetsTheInvariant : Obligations.ResetMeetsTheInvariant :=
  ⟨List.mem_cons_self, fun _ => ⟨rfl, rfl, rfl⟩, rfl, Nat.zero_le 8, List.forall_mem_nil _⟩

/-- Settles O41: each kind of edge keeps the invariant; a word is only performed on an empty buffer. -/
theorem stepKeepsTheInvariant : Obligations.StepKeepsTheInvariant := fun _ _ hs h =>
  step_keeps (P := Inv) (fun _ => Inv.resetBlock) (fun _ => Inv.transferToken) (fun _ => Inv.popCommand)
    (fun _ => Inv.advancePins) (fun _ _ _ => Inv.perform) h hs

end Sys2Proof.Machine
end

section
/-! Bits that no index depends on: a window of five bits, and ACC above CNT (10_state.md R21, 41_byte.md R92). -/

namespace Sys2Proof.Machine

/-- Numbers that agree on their last `k` bits agree on a window of five bits within them. -/
theorem window_congr {x y k m : Nat} (h : x ≡ y [MOD 2 ^ k]) (hm : m + 5 ≤ k) : x / 2 ^ m % 32 = y / 2 ^ m % 32 := by
  have hwindow : x % (2 ^ m * 32) = y % (2 ^ m * 32) :=
    h.of_dvd (by rw [show 32 = 2 ^ 5 from rfl, ← pow_add]; exact pow_dvd_pow 2 hm)
  rw [← Nat.mod_mul_right_div_self, hwindow, Nat.mod_mul_right_div_self]

/-- One more byte after the last `c` bits of a number. -/
theorem append_byte_modEq (x b c : Nat) : x * 256 + b ≡ x % 2 ^ c * 256 + b [MOD 2 ^ (c + 8)] := by
  rw [pow_add]
  exact (Nat.ModEq.mul_right' 256 (Nat.mod_modEq x (2 ^ c)).symm).add_right b

/-- Of the shifted accumulator the significant bits are the old ones and the byte. -/
theorem shiftIn_modEq (acc : Acc) (b : Byte) {c : Nat} (h : c ≤ 4) :
    (shiftIn acc b).toNat ≡ acc.toNat % 2 ^ c * 256 + b.toNat [MOD 2 ^ (c + 8)] := by
  have hwidth : (shiftIn acc b).toNat ≡ acc.toNat * 256 + b.toNat [MOD 2 ^ (c + 8)] := by
    rw [shiftIn_toNat]
    exact (Nat.mod_modEq _ 4096).of_dvd (pow_dvd_pow 2 (show c + 8 ≤ 12 by omega))
  exact hwidth.trans (append_byte_modEq _ _ _)

/-- The indices BYTE emits, from the significant bits alone. -/
theorem drainIdx_of_significant (acc : Acc) (b : Byte) {c : Cnt} (h : c.toNat ≤ 4) :
    drainIdx drainRounds (shiftIn acc b) (countIn c) =
      (List.range ((c.toNat + 8) / 5)).map (fun j =>
        BitVec.ofNat 5 ((acc.toNat % 2 ^ c.toNat * 256 + b.toNat) / 2 ^ (c.toNat + 8 - 5 * (j + 1)) % 32)) := by
  rw [drainIdx_countIn]
  refine List.map_congr_left fun j hj => ?_
  have hj := List.mem_range.mp hj
  rw [window_congr (shiftIn_modEq acc b h) (by omega)]

/-- The significant bits BYTE leaves are the last ones of the byte. -/
theorem foldByte_acc_significant (b : Byte) (s : State) :
    (foldByte b s).acc.toNat % 2 ^ (foldByte b s).cnt.toNat = b.toNat % 2 ^ (foldByte b s).cnt.toNat := by
  have hcnt : (foldByte b s).cnt.toNat ≤ 8 := by
    rw [foldByte_cnt_toNat]
    omega
  have hbyte : (shiftIn s.acc b).toNat ≡ b.toNat [MOD 2 ^ 8] := by
    have h := shiftIn_modEq s.acc b (Nat.zero_le 4)
    rwa [pow_zero, Nat.mod_one, Nat.zero_mul, Nat.zero_add, Nat.zero_add] at h
  have hacc : (foldByte b s).acc = shiftIn s.acc b := by rw [foldByte_eq, writeAcc_acc]
  rw [hacc]
  exact hbyte.of_dvd (pow_dvd_pow 2 hcnt)

end Sys2Proof.Machine
end

section
/-! A frame and its bit string (20_memory.md R43, 10_state.md R28). -/

namespace Sys2Proof.Machine

theorem frameBits_append (bytes bytes' : List Byte) :
    frameBits (bytes ++ bytes') = frameBits bytes ++ frameBits bytes' :=
  List.flatMap_append

theorem frameBits_singleton (b : Byte) : frameBits [b] = byteBits b := by
  simp [frameBits]

theorem wholeGroups_length (bits : List Bool) : (wholeGroups bits).length = bits.length / 5 := by
  rw [wholeGroups_eq, List.length_map, List.length_range]

/-- The whole groups that one more byte completes. -/
theorem wholeGroups_leftBits_byte (bits : List Bool) (b : Byte) :
    wholeGroups (leftBits bits ++ byteBits b) =
      (List.range ((bits.length % 5 + 8) / 5)).map (fun j =>
        BitVec.ofNat 5 ((bitsValue (leftBits bits) * 256 + b.toNat) / 2 ^ (bits.length % 5 + 8 - 5 * (j + 1)) % 32)) := by
  rw [wholeGroups_eq, bitsValue_append, byteBits_value, List.length_append, leftBits_length, byteBits_length,
    show (256 : Nat) = 2 ^ 8 from rfl]

/-- What is left over after one more byte are its last bits. -/
theorem bitsValue_leftBits_byte (bits : List Bool) (b : Byte) :
    bitsValue (leftBits (bits ++ byteBits b)) = b.toNat % 2 ^ ((bits.length + 8) % 5) := by
  rw [leftBits_value, bitsValue_append, byteBits_value, List.length_append, byteBits_length]
  have hdvd : 2 ^ ((bits.length + 8) % 5) ∣ bitsValue bits * 2 ^ 8 :=
    Dvd.dvd.mul_left (pow_dvd_pow 2 (by omega)) _
  rw [Nat.add_mod, Nat.mod_eq_zero_of_dvd hdvd, Nat.zero_add, Nat.mod_mod]

/-- The block in an open frame of variant `v` whose bytes so far are `bits`, begun with `record` already
delivered: R28. -/
structure HoldsBits (record : List Token) (v : Vsel) (bits : List Bool) (t : State) : Prop where
  fopen : t.fopen = true
  vsel : t.vsel = v
  cnt : t.cnt.toNat = bits.length % 5
  nsym : t.nsym = BitVec.ofNat 3 (bits.length / 5)
  acc : t.acc.toNat % 2 ^ t.cnt.toNat = bitsValue (leftBits bits)
  tokenBuf : t.tokenBuf = []
  delivered : t.delivered = record ++ (wholeGroups bits).map (symToken t.rom v)

theorem holdsBits_openFrame (v : Vsel) {s : State} (hbuf : s.tokenBuf = []) :
    HoldsBits s.delivered v [] (takeAll (openFrame v s)) where
  fopen := rfl
  vsel := rfl
  cnt := rfl
  nsym := rfl
  acc := rfl
  tokenBuf := rfl
  delivered := by simp [hbuf, wholeGroups]

theorem HoldsBits.cnt_le {record : List Token} {v : Vsel} {bits : List Bool} {t : State}
    (h : HoldsBits record v bits t) : t.cnt.toNat ≤ 4 := by
  rw [h.cnt]
  omega

/-- BYTE emits the groups the byte completes. -/
theorem HoldsBits.drainIdx {record : List Token} {v : Vsel} {bits : List Bool} {t : State}
    (h : HoldsBits record v bits t) (b : Byte) :
    drainIdx drainRounds (shiftIn t.acc b) (countIn t.cnt) = wholeGroups (leftBits bits ++ byteBits b) := by
  rw [drainIdx_of_significant _ _ h.cnt_le, h.acc, h.cnt, wholeGroups_leftBits_byte]

@[simp] theorem foldByte_delivered (b : Byte) (s : State) : (foldByte b s).delivered = s.delivered := by
  rw [foldByte_eq]; rfl

@[simp] theorem foldByte_rom (b : Byte) (s : State) : (foldByte b s).rom = s.rom := by
  rw [foldByte_eq]; rfl

theorem HoldsBits.takeByte {record : List Token} {v : Vsel} {bits : List Bool} {t : State}
    (h : HoldsBits record v bits t) (b : Byte) : HoldsBits record v (bits ++ byteBits b) (takeByte t b) := by
  obtain ⟨hnsym, htokens⟩ := foldByte_of_drainIdx (h.drainIdx b)
  have hcnt : (foldByte b t).cnt.toNat = (bits.length + 8) % 5 := by
    rw [foldByte_cnt_toNat, h.cnt]
    omega
  have hgroups : bits.length / 5 + (bits.length % 5 + 8) / 5 = (bits.length + 8) / 5 := by omega
  exact {
    fopen := (takeByte_fopen t b).trans h.fopen
    vsel := (foldByte_vsel b t).trans h.vsel
    cnt := by
      rw [Machine.takeByte, takeAll_cnt, hcnt, List.length_append, byteBits_length]
    nsym := by
      rw [Machine.takeByte, takeAll_nsym, hnsym, h.nsym, ← BitVec.ofNat_add, wholeGroups_length, List.length_append,
        List.length_append, leftBits_length, byteBits_length, hgroups]
    acc := by
      rw [Machine.takeByte, takeAll_acc, takeAll_cnt, foldByte_acc_significant, hcnt, bitsValue_leftBits_byte]
    tokenBuf := rfl
    delivered := by
      rw [Machine.takeByte, takeAll_delivered, takeAll_rom, foldByte_delivered, foldByte_rom, htokens, h.tokenBuf,
        h.delivered, h.vsel, wholeGroups_append bits, List.map_append, List.nil_append, List.append_assoc]
  }

/-- R28, by induction on the bytes. -/
theorem holdsBits_frameBody (v : Vsel) (bytes : List Byte) {s : State} (hbuf : s.tokenBuf = []) :
    HoldsBits s.delivered v (frameBits bytes) (frameBody v bytes s) := by
  induction bytes using List.reverseRecOn with
  | nil => exact holdsBits_openFrame v hbuf
  | append_singleton bytes b ih =>
    rw [frameBits_append, frameBits_singleton, frameBody, List.foldl_append]
    exact ih.takeByte b

theorem transact_next (w : CmdWord) (s : State) : ∃ t, transact w s = .next t := by
  obtain ⟨u, hu⟩ := perform_next w s
  exact ⟨takeAll u, by rw [transact, hu, onNext]⟩

theorem transact_frame {w : CmdWord} {s t : State} (h : transact w s = .next t) :
    ∃ toks, t = { s with
      fopen := t.fopen, vsel := t.vsel, acc := t.acc, cnt := t.cnt, nsym := t.nsym, tokenBuf := []
      delivered := s.delivered ++ toks } := by
  obtain ⟨u, hu⟩ := perform_next w s
  obtain ⟨toks, hframe⟩ := perform_frame hu
  rw [transact, hu, onNext] at h
  cases h
  refine ⟨s.tokenBuf ++ toks, ?_⟩
  rw [hframe]
  rfl

/-- Frame of a run of words: only the five registers change, and the record and the buffer. -/
theorem runWords_frame {ws : List CmdWord} {s t : State} (h : runWords ws s = .next t) :
    ∃ toks, t = { s with
      fopen := t.fopen, vsel := t.vsel, acc := t.acc, cnt := t.cnt, nsym := t.nsym, tokenBuf := t.tokenBuf
      delivered := s.delivered ++ toks } := by
  induction ws generalizing s with
  | nil =>
    cases h
    exact ⟨[], by rw [List.append_nil]⟩
  | cons w ws ih =>
    obtain ⟨u, hu⟩ := transact_next w s
    obtain ⟨toks, hframe⟩ := transact_frame hu
    rw [runWords_cons ws hu] at h
    obtain ⟨toks', ht⟩ := ih h
    refine ⟨toks ++ toks', ht.trans ?_⟩
    rw [hframe, List.append_assoc]

/-- Settles O44: `holdsBits_frameBody`, with the length of the bit string as eight times the number of bytes. -/
theorem openFrameHoldsTheBitString : Obligations.OpenFrameHoldsTheBitString := by
  intro v bytes s hidle hbuf bits n
  have holds := holdsBits_frameBody v bytes hbuf
  have hlength : bits.length = 8 * n := frameBits_length bytes
  have hrom : (frameBody v bytes s).rom = s.rom := by
    obtain ⟨_, hframe⟩ := runWords_frame (runWords_openWords v bytes hidle)
    rw [hframe]
  refine ⟨_, runWords_openWords v bytes hidle, holds.fopen, holds.vsel, ?cnt, ?nsym, ?delivered, ?groups, ?acc⟩
  case cnt => rw [holds.cnt, hlength]
  case nsym => rw [holds.nsym, BitVec.toNat_ofNat, hlength]
  case delivered => rw [holds.delivered, hrom]
  case groups => rw [wholeGroups_length, hlength]
  case acc => rw [holds.acc, holds.cnt, leftBits_eq_drop]

end Sys2Proof.Machine
end

section
/-! A whole frame: its tokens, its string, its lengths (20_memory.md R43; 42_frame_close.md R100 to R104). -/

namespace Sys2Proof.Machine

theorem bitsValue_zeros (n : Nat) : bitsValue (List.replicate n false) = 0 := by
  induction n with
  | zero => rfl
  | succ n ih => rw [List.replicate_succ', bitsValue_append, ih]; rfl

/-- The last group of a bit string: what is left over, over zeros. -/
theorem lastGroup_eq (bits : List Bool) :
    lastGroup bits =
      if bits.length % 5 = 0 then []
      else [BitVec.ofNat 5 (bitsValue (leftBits bits) * 2 ^ (5 - bits.length % 5))] := by
  have hlength := leftBits_length bits
  unfold lastGroup
  split
  next hnil =>
    rw [hnil, List.length_nil] at hlength
    rw [if_pos hlength.symm]
  next hcons =>
    have hne : ¬ bits.length % 5 = 0 := by
      rw [← hlength, List.length_eq_zero_iff]
      exact hcons
    rw [if_neg hne, bitsValue_append, bitsValue_zeros, List.length_replicate, hlength, Nat.add_zero]

theorem lastGroup_frameBits_length (bytes : List Byte) :
    (lastGroup (frameBits bytes)).length = if 8 * bytes.length % 5 = 0 then 0 else 1 := by
  rw [lastGroup_eq, frameBits_length]
  split_ifs <;> rfl

theorem frameIndices_length (bytes : List Byte) : (frameIndices bytes).length = (8 * bytes.length + 4) / 5 := by
  rw [frameIndices, List.length_append, wholeGroups_length, lastGroup_frameBits_length, frameBits_length]
  split_ifs <;> omega

/-- END flushes the last group of the bit string. -/
theorem HoldsBits.flushIdxs {record : List Token} {v : Vsel} {bits : List Bool} {t : State}
    (h : HoldsBits record v bits t) : flushIdxs t = lastGroup bits := by
  have hzero : t.cnt = 0 ↔ bits.length % 5 = 0 := by
    rw [← BitVec.toNat_inj, h.cnt]
    rfl
  rw [flushIdxs_of_cnt_le h.cnt_le, lastGroup_eq, h.acc, h.cnt]
  simp only [hzero]

theorem HoldsBits.endTokens {record : List Token} {v : Vsel} {bits : List Bool} {t : State}
    (h : HoldsBits record v bits t) :
    endTokens t =
      (lastGroup bits).map (symToken t.rom v) ++ padTokens (wholeGroups bits ++ lastGroup bits).length ++ [eofToken] := by
  have hpads : padCount (t.nsym + BitVec.ofNat 3 (lastGroup bits).length) =
      (8 - (wholeGroups bits ++ lastGroup bits).length % 8) % 8 := by
    rw [padCount_add_ofNat, h.nsym, BitVec.toNat_ofNat, List.length_append, wholeGroups_length]
    omega
  rw [Machine.endTokens, h.flushIdxs, h.vsel, hpads, padTokens]

/-- The tokens of a whole frame: those of the open frame, then END's. -/
theorem frameTokens_eq (rom : Rom) (v : Vsel) (bytes : List Byte) :
    frameTokens rom v bytes =
      (wholeGroups (frameBits bytes)).map (symToken rom v) ++
        ((lastGroup (frameBits bytes)).map (symToken rom v) ++ padTokens (frameIndices bytes).length ++ [eofToken]) := by
  rw [frameTokens, frameIndices, List.map_append]
  simp only [List.append_assoc]

theorem frameBody_rom (v : Vsel) (bytes : List Byte) {s : State} (hidle : s.fopen = false) :
    (frameBody v bytes s).rom = s.rom := by
  obtain ⟨_, hframe⟩ := runWords_frame (runWords_openWords v bytes hidle)
  rw [hframe]

/-- What a whole frame delivers. -/
theorem frame_delivered (v : Vsel) (bytes : List Byte) {s : State} (hidle : s.fopen = false) (hbuf : s.tokenBuf = []) :
    (takeAll (finishFrame (frameBody v bytes s))).delivered = s.delivered ++ frameTokens s.rom v bytes := by
  have holds := holdsBits_frameBody v bytes hbuf
  rw [takeAll_delivered, finishFrame_eq_endTokens, holds.tokenBuf, holds.delivered, holds.endTokens,
    frameBody_rom v bytes hidle, frameTokens_eq, frameIndices, List.nil_append, List.append_assoc]

/-- Settles O45: END clears the registers and keeps VSEL; the rest is `frame_delivered` and the frame of a run. -/
theorem frameDeliversItsEncoding : Obligations.FrameDeliversItsEncoding := by
  intro v bytes s hidle hbuf
  have hrun := runWords_frameWords v bytes hidle
  have hvsel := (holdsBits_frameBody v bytes hbuf).vsel
  obtain ⟨toks, hframe⟩ := runWords_frame hrun
  have hdelivered := frame_delivered v bytes hidle hbuf
  have htoks : toks = frameTokens s.rom v bytes := by
    rw [hframe] at hdelivered
    exact List.append_cancel_left hdelivered
  rw [hrun, hframe, htoks, finishFrame_eq_endTokens]
  simp [hvsel, hbuf]

/-! ### The encoded string (R103) -/

theorem encodedString_append (a b : List Token) : encodedString (a ++ b) = encodedString a ++ encodedString b := by
  simp [encodedString]

theorem encodedString_symTokens (rom : Rom) (v : Vsel) (idxs : List Idx) :
    encodedString (idxs.map (symToken rom v)) = idxs.map (romRead rom v) := by
  induction idxs with
  | nil => rfl
  | cons i is ih => simpa [encodedString, symToken] using ih

theorem encodedString_padTokens (n : Nat) :
    encodedString (List.replicate n padToken) = List.replicate n padChar := by
  simp [encodedString, padToken]

theorem encodedString_frameTokens (rom : Rom) (v : Vsel) (bytes : List Byte) :
    encodedString (frameTokens rom v bytes) =
      (frameIndices bytes).map (romRead rom v) ++
        List.replicate ((8 - (frameIndices bytes).length % 8) % 8) padChar := by
  rw [frameTokens, padTokens, encodedString_append, encodedString_append, encodedString_symTokens,
    encodedString_padTokens, show encodedString [eofToken] = [] from rfl, List.append_nil]

theorem encodedString_frameTokens_length (rom : Rom) (v : Vsel) (bytes : List Byte) :
    (encodedString (frameTokens rom v bytes)).length = 8 * ((bytes.length + 4) / 5) := by
  rw [encodedString_frameTokens, List.length_append, List.length_map, List.length_replicate, frameIndices_length]
  omega

/-- A frame's run, as the claims about whole frames take it. -/
theorem runWords_frameWords_delivered (v : Vsel) (bytes : List Byte) {s : State} (hidle : s.fopen = false)
    (hbuf : s.tokenBuf = []) :
    ∃ t, runWords (frameWords v bytes) s = .next t ∧ t.delivered = s.delivered ++ frameTokens s.rom v bytes :=
  ⟨_, frameDeliversItsEncoding v bytes s hidle hbuf, rfl⟩

theorem frameTokens_filter_sym_length (rom : Rom) (v : Vsel) (bytes : List Byte) :
    ((frameTokens rom v bytes).filter (fun x => x.kind = .sym)).length = (frameIndices bytes).length := by
  simp [frameTokens, padTokens, List.filter_append, List.filter_map, Function.comp_def, symToken, padToken, eofToken]

/-- Settles O47: one SYM for each index of the frame, and the padding fills the last block of 8. -/
theorem encodedLengths : Obligations.EncodedLengths := by
  intro v bytes s hidle hbuf
  obtain ⟨t, hrun, hdelivered⟩ := runWords_frameWords_delivered v bytes hidle hbuf
  refine ⟨t, _, hrun, hdelivered, ?_, encodedString_frameTokens_length _ _ _, ?_⟩
  · rw [frameTokens_filter_sym_length, frameIndices_length]
  · rw [encodedString_frameTokens_length]
    omega

/-- Settles O48: the indices and the padding are those of the bytes alone. -/
theorem stringDependsOnBytesAndVariant : Obligations.StringDependsOnBytesAndVariant := by
  intro v v' bytes s s' hidle hidle' hbuf hbuf' hrom
  obtain ⟨t, hrun, hdelivered⟩ := runWords_frameWords_delivered v bytes hidle hbuf
  obtain ⟨t', hrun', hdelivered'⟩ := runWords_frameWords_delivered v' bytes hidle' hbuf'
  rw [hrom] at hdelivered'
  exact ⟨t, t', _, _, frameIndices bytes, _, hrun, hrun', hdelivered, hdelivered', encodedString_frameTokens _ _ _,
    encodedString_frameTokens _ _ _, fun h => by rw [h]⟩

/-- Settles O12: the frame with no bytes, and the one error of STARTN. -/
theorem absentIsNotEmpty : Obligations.AbsentIsNotEmpty := by
  intro v s hidle hbuf
  refine ⟨runWords_frameWords_delivered v [] hidle hbuf, ?_, rfl⟩
  refine ⟨_, runWords_singleton (transact_encode (exec_startn_of_idle hidle v)), ?_, hidle, rfl⟩
  simp [hbuf, ErrCode.token, ErrCode.code]

/-- The table of R101 in closed form: CNT, NSYM, final SYM and PAD tokens by the remainder of the number of bytes. -/
theorem endTable_row {r : Nat} (h : r < 5) :
    [(0, 0, 0, 0), (3, 1, 1, 6), (1, 3, 1, 4), (4, 4, 1, 3), (2, 6, 1, 1)][r]? =
      some (8 * r % 5, 8 * r / 5, if 8 * r % 5 = 0 then 0 else 1, (8 - (8 * r + 4) / 5 % 8) % 8) := by
  interval_cases r <;> rfl

/-- Settles O17: CNT and NSYM are those of the bit string's length, and END's tokens follow from them. -/
theorem endTableByRemainder : Obligations.EndTableByRemainder := by
  intro v bytes s hidle hbuf
  have holds := holdsBits_frameBody v bytes hbuf
  have hdelivered := frame_delivered v bytes hidle hbuf
  refine ⟨_, _, (lastGroup (frameBits bytes)).map (symToken s.rom v), (8 - (frameIndices bytes).length % 8) % 8,
    runWords_openWords v bytes hidle, transact_encode (exec_end_of_open holds.fopen), ?tokens, ?kinds, ?table, ?length⟩
  case tokens =>
    rw [takeAll_delivered, finishFrame_eq_endTokens, holds.tokenBuf, holds.endTokens, frameBody_rom v bytes hidle]
    simp only [List.nil_append, List.append_assoc]
    rfl
  case kinds => simp [symToken]
  case table =>
    have hcnt : 8 * (bytes.length % 5) % 5 = 8 * bytes.length % 5 := by omega
    have hnsym : 8 * (bytes.length % 5) / 5 = 8 * bytes.length / 5 % 8 := by omega
    have hsplit : (8 * bytes.length + 4) / 5 = 8 * (bytes.length / 5) + (8 * (bytes.length % 5) + 4) / 5 := by omega
    have hpads : (8 * (bytes.length % 5) + 4) / 5 % 8 = (8 * bytes.length + 4) / 5 % 8 := by
      rw [hsplit, Nat.mul_add_mod]
    rw [endTable_row (Nat.mod_lt _ (by decide)), hcnt, hnsym, hpads, holds.cnt, holds.nsym, frameIndices_length,
      frameBits_length, BitVec.toNat_ofNat, List.length_map, lastGroup_frameBits_length]
  case length => rw [hdelivered, List.drop_left, encodedString_frameTokens_length]

end Sys2Proof.Machine
end

section
/-! QYC's algorithm on an unmasked buffer finds the same indices (41_byte.md R92, 42_frame_close.md R100). -/

namespace Sys2Proof.Machine

/-- The drain loop on an unmasked buffer, with rounds enough: five bits at `left - 5`, then at `left - 10`, and so on. -/
theorem qycDrain_eq (n buf left : Nat) (indices : List Nat) (hn : left < 5 * (n + 1)) :
    qycDrain n ⟨buf, left, indices⟩ =
      ⟨buf, left % 5, indices ++ (List.range (left / 5)).map (fun j => buf / 2 ^ (left - 5 * (j + 1)) % 32)⟩ := by
  induction n generalizing left indices with
  | zero =>
    have h0 : left / 5 = 0 := by omega
    have hmod : left % 5 = left := by omega
    simp [qycDrain, h0, hmod]
  | succ n ih =>
    unfold qycDrain
    by_cases h : 5 ≤ left
    · obtain ⟨rest, rfl⟩ : ∃ rest, left = rest + 5 := ⟨left - 5, by omega⟩
      have hwindow : (buf >>> rest) &&& 0x1F = buf / 2 ^ rest % 32 := by
        rw [Nat.shiftRight_eq_div_pow]
        exact Nat.and_two_pow_sub_one_eq_mod _ 5
      have hshift (j : Nat) : rest + 5 - 5 * (j.succ + 1) = rest - 5 * (j + 1) := by omega
      rw [if_pos h, Nat.add_sub_cancel, ih _ _ (by omega), hwindow, Nat.add_mod_right,
        Nat.add_div_right rest (by decide), List.range_succ_eq_map, List.map_cons, List.map_map, List.append_assoc]
      simp only [Function.comp_def, hshift, List.singleton_append, Nat.zero_add, Nat.mul_one, Nat.add_sub_cancel]
    · have h0 : left / 5 = 0 := by omega
      have hmod : left % 5 = left := by omega
      simp [h, h0, hmod]

/-- QYC after the bytes of a bit string: the buffer is the whole string's value. -/
structure QycHolds (bits : List Bool) (q : Qyc) : Prop where
  buffer : q.buffer = bitsValue bits
  bitsLeft : q.bitsLeft = bits.length % 5
  indices : q.indices.map (BitVec.ofNat 5) = wholeGroups bits

theorem qycHolds_start : QycHolds [] qycStart := ⟨rfl, rfl, rfl⟩

theorem QycHolds.byte {bits : List Bool} {q : Qyc} (h : QycHolds bits q) (b : Byte) :
    QycHolds (bits ++ byteBits b) (qycByte q b) := by
  have hbuffer : (q.buffer <<< 8) ||| b.toNat = bitsValue bits * 256 + b.toNat := by
    rw [h.buffer, ← Nat.shiftLeft_add_eq_or_of_lt b.isLt, Nat.shiftLeft_eq]
  have hlength : (q.bitsLeft + 8) % 5 = (bits.length + 8) % 5 := by
    rw [h.bitsLeft]
    omega
  rw [qycByte, hbuffer, qycDrain_eq _ _ _ _ (by omega)]
  refine ⟨?buffer, ?bitsLeft, ?indices⟩
  case buffer => rw [bitsValue_append, byteBits_value, byteBits_length, show (256 : Nat) = 2 ^ 8 from rfl]
  case bitsLeft => rw [hlength, List.length_append, byteBits_length]
  case indices =>
    have hbits := append_byte_modEq (bitsValue bits) b.toNat (bits.length % 5)
    rw [List.map_append, h.indices, wholeGroups_append, wholeGroups_leftBits_byte, leftBits_value, List.map_map,
      h.bitsLeft]
    refine congrArg (wholeGroups bits ++ ·) (List.map_congr_left fun j hj => ?_)
    have hj := List.mem_range.mp hj
    rw [Function.comp_apply, window_congr hbits (by omega)]

theorem qycHolds_bytes (bytes : List Byte) : QycHolds (frameBits bytes) (bytes.foldl qycByte qycStart) := by
  induction bytes using List.reverseRecOn with
  | nil => exact qycHolds_start
  | append_singleton bytes b ih =>
    rw [frameBits_append, frameBits_singleton, List.foldl_append]
    exact ih.byte b

/-- The flush reads the last group out of the unmasked buffer. -/
theorem QycHolds.flush_indices {bits : List Bool} {q : Qyc} (h : QycHolds bits q) :
    (qycFlush q).indices.map (BitVec.ofNat 5) = wholeGroups bits ++ lastGroup bits := by
  rw [lastGroup_eq]
  by_cases h0 : bits.length % 5 = 0
  · rw [qycFlush, if_neg (by rw [h.bitsLeft, h0]; decide), if_pos h0, h.indices, List.append_nil]
  · rw [qycFlush, if_pos (by rw [h.bitsLeft]; omega), if_neg h0, List.map_append, h.indices]
    have hidx : BitVec.ofNat 5 ((q.buffer <<< (5 - q.bitsLeft)) &&& 0x1F) =
        BitVec.ofNat 5 (bitsValue (leftBits bits) * 2 ^ (5 - bits.length % 5)) := by
      have hpow : 2 ^ 5 = 2 ^ (bits.length % 5) * 2 ^ (5 - bits.length % 5) := by
        rw [← pow_add]
        congr 1
        omega
      rw [show 0x1F = 2 ^ 5 - 1 from rfl, Nat.and_two_pow_sub_one_eq_mod, h.buffer, h.bitsLeft, Nat.shiftLeft_eq,
        leftBits_value, hpow, Nat.mul_mod_mul_right]
    rw [List.map_singleton, hidx]

/-- QYC's string is that of the frame's indices and padding. -/
theorem qycEncode_eq (rom : Rom) (v : Vsel) (bytes : List Byte) :
    qycEncode rom v bytes =
      (frameIndices bytes).map (romRead rom v) ++
        List.replicate ((8 - (frameIndices bytes).length % 8) % 8) padChar := by
  have hindices : (qycFlush (bytes.foldl qycByte qycStart)).indices.map (BitVec.ofNat 5) = frameIndices bytes :=
    (qycHolds_bytes bytes).flush_indices
  have hlength : (qycFlush (bytes.foldl qycByte qycStart)).indices.length = (frameIndices bytes).length := by
    rw [← hindices, List.length_map]
  rw [qycEncode, ← hindices]
  simp [hlength]

/-- Settles O46: both strings are those of the frame's indices and padding. -/
theorem frameStringIsQycEncode : Obligations.FrameStringIsQycEncode := by
  intro v bytes s hidle hbuf
  obtain ⟨t, hrun, hdelivered⟩ := runWords_frameWords_delivered v bytes hidle hbuf
  exact ⟨t, _, hrun, hdelivered, (encodedString_frameTokens _ _ _).trans (qycEncode_eq _ _ _).symm⟩

end Sys2Proof.Machine
end

section
/-! An error inside a frame adds its one token to the record and leaves the run as it would be without it
(60_exceptions.md R128, 42_frame_close.md R103). -/

namespace Sys2Proof.Machine

/-- A performed word does not read the consumer's record. -/
theorem perform_record {w : CmdWord} {s t : State} (h : perform w s = .next t) (d : List Token) :
    perform w { s with delivered := d } = .next { t with delivered := d } := by
  have hports := perform_ports w s s.cmdQueue s.rst s.outReady s.edges d
  obtain ⟨_, hframe⟩ := perform_frame h
  rw [h, onNext] at hports
  refine hports.trans ?_
  rw [hframe]

/-- A transaction adds tokens to the consumer's record and depends on nothing in it. -/
theorem transact_record {w : CmdWord} {s t : State} (h : transact w s = .next t) :
    ∃ toks, t.delivered = s.delivered ++ toks ∧
      ∀ d, transact w { s with delivered := d } = .next { t with delivered := d ++ toks } := by
  obtain ⟨u, hu⟩ := perform_next w s
  obtain ⟨_, hframe⟩ := perform_frame hu
  have hrecord : u.delivered = s.delivered := by rw [hframe]
  rw [transact, hu, onNext] at h
  cases h
  refine ⟨u.tokenBuf, by rw [takeAll_delivered, hrecord], fun d => ?_⟩
  rw [transact, perform_record hu, onNext]
  rfl

/-- So does a run of words. -/
theorem runWords_record {ws : List CmdWord} {s t : State} (h : runWords ws s = .next t) :
    ∃ toks, t.delivered = s.delivered ++ toks ∧
      ∀ d, runWords ws { s with delivered := d } = .next { t with delivered := d ++ toks } := by
  induction ws generalizing s with
  | nil =>
    cases h
    exact ⟨[], (List.append_nil _).symm, fun d => by rw [List.append_nil]; rfl⟩
  | cons w ws ih =>
    obtain ⟨u, hu⟩ := transact_next w s
    obtain ⟨toks, htoks, hsame⟩ := transact_record hu
    rw [runWords_cons ws hu] at h
    obtain ⟨toks', htoks', hsame'⟩ := ih h
    refine ⟨toks ++ toks', by rw [htoks', htoks, List.append_assoc], fun d => ?_⟩
    rw [runWords_cons ws (hsame d), hsame', List.append_assoc]

/-- A reserved word, a START and a STARTN raise an error in an open frame. -/
theorem transact_error_of_open {w : CmdWord} {s : State} (hopen : s.fopen = true)
    (hw : (∃ why, decode w = .reserved why) ∨ (∃ x, decode w = .command (.start x)) ∨
      (∃ x, decode w = .command (.startn x))) : ∃ e, transact w s = .next (takeAll (raiseErr e s)) := by
  rcases hw with ⟨why, h⟩ | ⟨v, h⟩ | ⟨v, h⟩
  · exact ⟨.reserved, by rw [transact, perform_of_reserved h, onNext]⟩
  · rw [← encodeInvertsDecode w _ h]
    exact ⟨.frameOpen, transact_encode (exec_start_of_open hopen v)⟩
  · rw [← encodeInvertsDecode w _ h]
    exact ⟨.frameOpen, transact_encode (exec_startn_of_open hopen v)⟩

theorem errFree_frameTokens (rom : Rom) (v : Vsel) (bytes : List Byte) : ErrFree (frameTokens rom v bytes) :=
  ((errFree_symTokens _ _ _).append (errFree_padTokens _)).append errFree_eofToken

theorem ErrFree.filter_not_err {toks : List Token} (h : ErrFree toks) : toks.filter (fun x => x.kind ≠ .err) = toks :=
  List.filter_eq_self.mpr fun x hx => by simpa using h x hx

theorem openWords_append (v : Vsel) (before after : List Byte) :
    openWords v (before ++ after) = openWords v before ++ after.map (fun b => encode (.byte b)) := by
  simp [openWords]

theorem encodedString_err (e : ErrCode) : encodedString [e.token] = [] := rfl

/-- Settles O23: the run splits at the erroneous word; the first part leaves an open frame, in which the word adds its ERR
token to the record, and the second part does not read the record. -/
theorem errorsDoNotDisturbAFrame : Obligations.ErrorsDoNotDisturbAFrame := by
  intro v before after w s hidle hbuf hw
  have holds := holdsBits_frameBody v before hbuf
  have hopening := runWords_openWords v before hidle
  obtain ⟨first, hfirst⟩ : ∃ first, (frameBody v before s).delivered = s.delivered ++ first := ⟨_, holds.delivered⟩
  obtain ⟨e, he⟩ := transact_error_of_open holds.fopen hw
  obtain ⟨t, hrun, hdelivered⟩ := runWords_frameWords_delivered v (before ++ after) hidle hbuf
  have hsplit := hrun
  rw [frameWords, openWords_append, List.append_assoc, runWords_append _ hopening] at hsplit
  obtain ⟨rest, hrest, hsame⟩ := runWords_record hsplit
  have htoks : frameTokens s.rom v (before ++ after) = first ++ rest := by
    rw [hdelivered, hfirst, List.append_assoc] at hrest
    exact List.append_cancel_left hrest
  have herror : takeAll (raiseErr e (frameBody v before s)) =
      { frameBody v before s with delivered := s.delivered ++ (first ++ [e.token]) } := by
    simp [takeAll, raiseErr, emit, holds.tokenBuf, hfirst, ErrCode.token]
  have hclean := errFree_frameTokens s.rom v (before ++ after)
  rw [htoks] at hdelivered hclean
  obtain ⟨hcleanFirst, hcleanRest⟩ := List.forall_mem_append.mp hclean
  have hadded : (s.delivered ++ (first ++ [e.token]) ++ rest).drop s.delivered.length = first ++ [e.token] ++ rest := by
    rw [List.append_assoc, List.drop_left]
  refine ⟨t, { t with delivered := s.delivered ++ (first ++ [e.token]) ++ rest }, first ++ rest, e.token, hrun, ?run,
    hdelivered, rfl, ?filter, ?string, rfl, ?length, ?mem⟩
  case run =>
    rw [List.append_assoc, runWords_append _ hopening, List.singleton_append, runWords_cons _ he, herror]
    exact hsame _
  case filter =>
    rw [hadded, List.filter_append, List.filter_append, ErrFree.filter_not_err hcleanFirst,
      ErrFree.filter_not_err hcleanRest, show [e.token].filter (fun x => x.kind ≠ .err) = [] from rfl, List.append_nil]
  case string =>
    rw [hadded, encodedString_append, encodedString_append, encodedString_append, encodedString_err, List.append_nil]
  case length =>
    rw [hdelivered]
    simp only [List.length_append, List.length_singleton]
    omega
  case mem => simp

end Sys2Proof.Machine
end

section
/-! The stale bits of ACC (10_state.md R21, R37). -/

namespace Sys2Proof.Machine

/-- Two blocks with CNT at most 4 that differ only in ACC above CNT. -/
structure SameButStale (s s' : State) : Prop where
  cnt_le : s.cnt.toNat ≤ 4
  rest : s' = { s with acc := s'.acc }
  acc : s'.acc.toNat % 2 ^ s.cnt.toNat = s.acc.toNat % 2 ^ s.cnt.toNat

theorem SameButStale.refl {s : State} (h : s.cnt.toNat ≤ 4) : SameButStale s s := ⟨h, rfl, rfl⟩

theorem SameButStale.raiseErr {s s' : State} (h : SameButStale s s') (e : ErrCode) :
    SameButStale (raiseErr e s) (raiseErr e s') where
  cnt_le := h.cnt_le
  rest := by rw [h.rest]; rfl
  acc := h.acc

theorem SameButStale.takeAll {s s' : State} (h : SameButStale s s') : SameButStale (takeAll s) (takeAll s') where
  cnt_le := h.cnt_le
  rest := by rw [h.rest]; rfl
  acc := h.acc

/-- BYTE finds the same indices, and leaves the last bits of its byte below CNT. -/
theorem SameButStale.foldByte {s s' : State} (h : SameButStale s s') (b : Byte) :
    SameButStale (foldByte b s) (foldByte b s') := by
  have hcnt : s'.cnt = s.cnt := by rw [h.rest]
  have hidx : drainIdx drainRounds (shiftIn s'.acc b) (countIn s.cnt) =
      drainIdx drainRounds (shiftIn s.acc b) (countIn s.cnt) := by
    rw [drainIdx_of_significant _ _ h.cnt_le, drainIdx_of_significant _ _ h.cnt_le, h.acc]
  have hrest : Machine.foldByte b s' = { Machine.foldByte b s with acc := (Machine.foldByte b s').acc } := by
    rw [foldByte_eq, foldByte_eq, hcnt, hidx, h.rest]
    rfl
  refine ⟨?cnt, hrest, ?acc⟩
  case cnt =>
    rw [foldByte_cnt_toNat]
    omega
  case acc =>
    have hcnt' : (Machine.foldByte b s').cnt = (Machine.foldByte b s).cnt := by rw [hrest]
    rw [foldByte_acc_significant, ← hcnt', foldByte_acc_significant]

/-- END flushes the significant bits and clears the rest. -/
theorem SameButStale.finishFrame {s s' : State} (h : SameButStale s s') :
    SameButStale (finishFrame s) (finishFrame s') := by
  have hcnt : s'.cnt = s.cnt := by rw [h.rest]
  have hflush : flushIdxs s' = flushIdxs s := by
    rw [flushIdxs_of_cnt_le h.cnt_le, flushIdxs_of_cnt_le (hcnt ▸ h.cnt_le), hcnt, h.acc]
  have hsame : Machine.finishFrame s' = Machine.finishFrame s := by
    rw [finishFrame_eq, finishFrame_eq, hflush, h.rest]
  rw [hsame]
  refine .refl ?_
  rw [finishFrame_eq]
  exact Nat.zero_le 4

theorem SameButStale.exec {s s' : State} (h : SameButStale s s') (i : Instr) :
    ∃ t t', exec i s = .next t ∧ exec i s' = .next t' ∧ SameButStale t t' := by
  cases hopen : s.fopen with
  | false =>
    have hopen' : s'.fopen = false := by rw [h.rest, hopen]
    cases i with
    | byte b => exact ⟨_, _, exec_byte_of_idle hopen b, exec_byte_of_idle hopen' b, h.raiseErr _⟩
    | start v =>
      have hsame : openFrame v s' = openFrame v s := by rw [h.rest]; rfl
      exact ⟨_, _, exec_start_of_idle hopen v, exec_start_of_idle hopen' v, hsame ▸ .refl (Nat.zero_le 4)⟩
    | startn v => exact ⟨_, _, exec_startn_of_idle hopen v, exec_startn_of_idle hopen' v, h.raiseErr _⟩
    | endFrame => exact ⟨_, _, exec_end_of_idle hopen, exec_end_of_idle hopen', h.raiseErr _⟩
  | true =>
    have hopen' : s'.fopen = true := by rw [h.rest, hopen]
    cases i with
    | byte b => exact ⟨_, _, exec_byte_of_open hopen b, exec_byte_of_open hopen' b, h.foldByte b⟩
    | start v => exact ⟨_, _, exec_start_of_open hopen v, exec_start_of_open hopen' v, h.raiseErr _⟩
    | startn v => exact ⟨_, _, exec_startn_of_open hopen v, exec_startn_of_open hopen' v, h.raiseErr _⟩
    | endFrame => exact ⟨_, _, exec_end_of_open hopen, exec_end_of_open hopen', h.finishFrame⟩

theorem SameButStale.transact {s s' : State} (h : SameButStale s s') (w : CmdWord) :
    ∃ t t', transact w s = .next t ∧ transact w s' = .next t' ∧ SameButStale t t' := by
  cases hdecode : decode w with
  | command i =>
    obtain ⟨t, t', ht, ht', hstale⟩ := h.exec i
    rw [← encodeInvertsDecode w i hdecode]
    exact ⟨_, _, transact_encode ht, transact_encode ht', hstale.takeAll⟩
  | reserved why =>
    refine ⟨_, _, ?_, ?_, (h.raiseErr .reserved).takeAll⟩ <;> rw [Machine.transact, perform_of_reserved hdecode, onNext]

theorem SameButStale.runWords {s s' : State} (h : SameButStale s s') (ws : List CmdWord) :
    ∃ t t', runWords ws s = .next t ∧ runWords ws s' = .next t' ∧ SameButStale t t' := by
  induction ws generalizing s s' with
  | nil => exact ⟨s, s', rfl, rfl, h⟩
  | cons w ws ih =>
    obtain ⟨u, u', hu, hu', hstale⟩ := h.transact w
    rw [runWords_cons ws hu, runWords_cons ws hu']
    exact ih hstale

/-- Settles O49: every command keeps two such blocks alike, and so does every run. -/
theorem staleBitsAreNeverSeen : Obligations.StaleBitsAreNeverSeen := by
  intro ws a s hcnt hacc
  have hstale : SameButStale s { s with acc := a } := ⟨hcnt, rfl, hacc⟩
  obtain ⟨t, t', ht, ht', h⟩ := hstale.runWords ws
  exact ⟨t, t'.acc, ht, by rw [ht', ← h.rest], h.acc⟩

end Sys2Proof.Machine
end

section
/-! Runs of edges against runs of words: with a consumer that always accepts (70_reset_and_hazards.md R150), and with
one that accepts every offered token after some number of edges (R149). -/

namespace Sys2Proof.Machine

theorem takeAll_of_nil {s : State} (h : s.tokenBuf = []) : takeAll s = s := by
  rw [takeAll, h, List.append_nil, ← h]

theorem takeAll_transferToken (s : State) : takeAll (transferToken s) = takeAll s := by
  cases h : s.tokenBuf <;> simp [takeAll, transferToken, h]

theorem runEdges_succ (n : Nat) {s t : State} (h : clockEdge s = .next t) : runEdges (n + 1) s = runEdges n t := by
  rw [runEdges, h]

/-- A consumer that always accepts takes the buffer at one token an edge. -/
theorem runEdges_of_ready {toks : List Token} {s : State} (hbuf : s.tokenBuf = toks) (hrst : s.rst = false)
    (hready : s.outReady = true) (hedges : s.edges = []) : runEdges toks.length s = .next (takeAll s) := by
  induction toks generalizing s with
  | nil =>
    rw [takeAll_of_nil hbuf]
    rfl
  | cons x rest ih =>
    have hedge := clockEdge_of_transfer hrst (by simp [hbuf]) hready
    have hpins : advancePins (transferToken s) = transferToken s := advancePins_of_nil hedges
    rw [hpins] at hedge
    rw [List.length_cons, runEdges_succ _ hedge, ← takeAll_transferToken]
    exact ih (by rw [transferToken_tokenBuf, hbuf, List.tail_cons]) hrst hready hedges

/-- Settles O38: one edge performs the word, and its tokens take one edge each. -/
theorem commandTakesOneEdgeAndOnePerToken : Obligations.CommandTakesOneEdgeAndOnePerToken := by
  intro w ws s t hrst hready hedges hbuf hqueue h
  rw [← popCommand_of_cons hqueue] at h
  obtain ⟨u, hu⟩ := perform_next w (popCommand s)
  obtain ⟨toks, hframe⟩ := perform_frame hu
  rw [State.mk.injEq] at hframe
  obtain ⟨-, -, -, -, -, -, -, hurst, huready, -, huedges, hurecord, -⟩ := hframe
  have hedge := clockEdge_of_performed hrst hbuf hqueue hu
  rw [advancePins_of_nil (huedges.trans hedges)] at hedge
  rw [transact, hu, onNext] at h
  cases h
  refine ⟨u.tokenBuf.length, ?_, ?_⟩
  · rw [takeAll_delivered, List.length_append, hurecord, popCommand_delivered]
  · rw [runEdges_succ _ hedge]
    exact runEdges_of_ready rfl (hurst.trans hrst) (huready.trans hready) (huedges.trans hedges)

/-- A state with other levels of `out_ready`, present and scheduled. -/
def withPins (o : Bool) (es : List EdgeInput) (s : State) : State := { s with outReady := o, edges := es }

theorem advancePins_of_noReset {s : State} (h : s.NoReset) : ∃ o es, advancePins s = withPins o es s := by
  obtain ⟨hrst, hlater⟩ := h
  cases hs : s.edges with
  | nil => exact ⟨s.outReady, s.edges, advancePins_of_nil hs⟩
  | cons e es =>
    refine ⟨e.outReady, es, ?_⟩
    rw [advancePins_of_cons hs, hlater e (by simp [hs]), ← hrst]
    rfl

/-- If `out_ready` is 1 after some number of edges, the oldest token transfers by then. -/
theorem runEdges_transfers {m : Nat} {s u : State} (hn : s.NoReset) (hbuf : s.tokenBuf ≠ [])
    (h : runEdges m s = .next u) (hu : u.outReady = true) :
    ∃ n o es, runEdges n s = .next (withPins o es (transferToken s)) := by
  have hrst := hn.1
  induction m generalizing s with
  | zero =>
    cases h
    obtain ⟨o, es, hpins⟩ := advancePins_of_noReset (s := transferToken u) hn
    exact ⟨1, o, es, by rw [runEdges_succ 0 (clockEdge_of_transfer hrst hbuf hu), hpins]; rfl⟩
  | succ m ih =>
    cases hready : s.outReady with
    | true =>
      obtain ⟨o, es, hpins⟩ := advancePins_of_noReset (s := transferToken s) hn
      exact ⟨1, o, es, by rw [runEdges_succ 0 (clockEdge_of_transfer hrst hbuf hready), hpins]; rfl⟩
    | false =>
      have hedge := clockEdge_of_hold hrst hbuf hready
      have hn' := noReset_clockEdge hn hedge
      obtain ⟨o, es, hpins⟩ := advancePins_of_noReset hn
      rw [runEdges_succ m hedge] at h
      rw [hpins] at h hn' hedge
      obtain ⟨n, o', es', hrun⟩ := ih hn' hbuf h hn'.1
      exact ⟨n + 1, o', es', by rw [runEdges_succ n hedge, hrun]; rfl⟩

/-- A fair consumer takes the whole buffer. -/
theorem runEdges_drains {toks : List Token} {s : State} (hbuf : s.tokenBuf = toks) (hn : s.NoReset)
    (hf : s.FairConsumer) : ∃ n o es, runEdges n s = .next (withPins o es (takeAll s)) := by
  induction toks generalizing s with
  | nil => exact ⟨0, s.outReady, s.edges, by rw [takeAll_of_nil hbuf]; rfl⟩
  | cons x rest ih =>
    have hoffered : s.outValid = true := by simp [State.outValid, hn.1, hbuf]
    obtain ⟨m, u, hu, haccept⟩ := hf 0 s rfl hoffered
    have hready : u.outReady = true := haccept.resolve_right (by simp [(noReset_runEdges hn hu).1])
    obtain ⟨n, o, es, hrun⟩ := runEdges_transfers hn (by simp [hbuf]) hu hready
    have hbuf' : (withPins o es (transferToken s)).tokenBuf = rest := congrArg List.tail hbuf
    obtain ⟨n', o', es', hrun'⟩ := ih hbuf' (noReset_runEdges hn hrun) (fairConsumer_runEdges hf hrun)
    refine ⟨n + n', o', es', ?_⟩
    rw [runEdges_add n' hrun, hrun', ← takeAll_transferToken s]
    rfl

/-- A performed word reads neither the producer's queue nor the levels of `out_ready`. -/
theorem perform_with_queue_pins {w : CmdWord} {s t : State} (h : perform w s = .next t) (q : List CmdWord) (o : Bool)
    (es : List EdgeInput) :
    perform w { s with cmdQueue := q, outReady := o, edges := es } =
      .next { t with cmdQueue := q, outReady := o, edges := es } := by
  have hports := perform_ports w s q s.rst o es s.delivered
  obtain ⟨_, hframe⟩ := perform_frame h
  rw [h, onNext] at hports
  refine hports.trans ?_
  rw [hframe]

theorem perform_withPins {w : CmdWord} {s t : State} (h : perform w s = .next t) (o : Bool) (es : List EdgeInput) :
    perform w (withPins o es s) = .next (withPins o es t) := by
  refine (perform_with_queue_pins h s.cmdQueue o es).trans ?_
  rw [← perform_cmdQueue h]
  rfl

theorem runWords_withPins {ws : List CmdWord} {s t : State} (h : runWords ws s = .next t) (o : Bool)
    (es : List EdgeInput) : runWords ws (withPins o es s) = .next (withPins o es t) := by
  induction ws generalizing s with
  | nil => cases h; rfl
  | cons w ws ih =>
    obtain ⟨u, hu⟩ := perform_next w s
    have htransact : transact w s = .next (takeAll u) := by rw [transact, hu, onNext]
    have htransact' : transact w (withPins o es s) = .next (withPins o es (takeAll u)) := by
      rw [transact, perform_withPins hu, onNext]
      rfl
    rw [runWords_cons ws htransact] at h
    rw [runWords_cons ws htransact']
    exact ih h

theorem runWords_next (ws : List CmdWord) (s : State) : ∃ t, runWords ws s = .next t := by
  induction ws generalizing s with
  | nil => exact ⟨s, rfl⟩
  | cons w ws ih =>
    obtain ⟨u, hu⟩ := transact_next w s
    rw [runWords_cons ws hu]
    exact ih u

theorem runWords_drained {ws : List CmdWord} {s t : State} (h : runWords ws s = .next t) (hbuf : s.tokenBuf = []) :
    t.tokenBuf = [] := by
  induction ws generalizing s with
  | nil => cases h; exact hbuf
  | cons w ws ih =>
    obtain ⟨u, hu⟩ := transact_next w s
    obtain ⟨_, hframe⟩ := transact_frame hu
    rw [runWords_cons ws hu] at h
    exact ih h (by rw [hframe])

/-- A fair consumer drains the buffer, and the next edge performs the offered word. -/
theorem runEdges_takes_word {w : CmdWord} {ws : List CmdWord} {s p : State} (hqueue : s.cmdQueue = w :: ws)
    (hn : s.NoReset) (hf : s.FairConsumer) (hp : perform w { takeAll s with cmdQueue := [] } = .next p) :
    ∃ n o es, runEdges n s = .next (withPins o es { p with cmdQueue := ws }) := by
  obtain ⟨n, o, es, hdrain⟩ := runEdges_drains rfl hn hf
  obtain ⟨hrst, hlater⟩ := noReset_runEdges hn hdrain
  have hperform : perform w (popCommand (withPins o es (takeAll s))) =
      .next { p with cmdQueue := ws, outReady := o, edges := es } := by
    rw [popCommand_of_cons (s := withPins o es (takeAll s)) hqueue]
    exact perform_with_queue_pins hp ws o es
  have hedge := clockEdge_of_performed hrst rfl hqueue hperform
  obtain ⟨_, hframe⟩ := perform_frame hp
  have hprst : p.rst = false := by rw [hframe]; exact hn.1
  obtain ⟨o', es', hpins⟩ :=
    advancePins_of_noReset (s := { p with cmdQueue := ws, outReady := o, edges := es }) ⟨hprst, hlater⟩
  refine ⟨n + 1, o', es', ?_⟩
  rw [runEdges_add 1 hdrain, runEdges_succ 0 hedge, hpins]
  rfl

/-- With a fair consumer and no reset some number of edges does what the words do as transactions, but for the levels of
`out_ready`: drain the buffer, take one word, and go on with the others. -/
theorem runEdges_fair {ws : List CmdWord} {s : State} (hqueue : s.cmdQueue = ws) (hn : s.NoReset)
    (hf : s.FairConsumer) :
    ∃ n t o es, runWords ws { takeAll s with cmdQueue := [] } = .next t ∧ runEdges n s = .next (withPins o es t) := by
  induction ws generalizing s with
  | nil =>
    obtain ⟨n, o, es, hrun⟩ := runEdges_drains rfl hn hf
    refine ⟨n, _, o, es, rfl, ?_⟩
    rw [hrun, ← hqueue]
    rfl
  | cons w ws ih =>
    obtain ⟨p, hp⟩ := perform_next w { takeAll s with cmdQueue := [] }
    obtain ⟨n, o, es, htaken⟩ := runEdges_takes_word hqueue hn hf hp
    obtain ⟨n', t', o', es', hwords', hrun'⟩ := ih rfl (noReset_runEdges hn htaken) (fairConsumer_runEdges hf htaken)
    obtain ⟨t, ht⟩ := runWords_next ws (takeAll p)
    have hpqueue : p.cmdQueue = [] := perform_cmdQueue hp
    have hstate : { takeAll (withPins o es { p with cmdQueue := ws }) with cmdQueue := [] } =
        withPins o es (takeAll p) := by
      simp [withPins, takeAll, hpqueue]
    rw [hstate, runWords_withPins ht] at hwords'
    cases hwords'
    refine ⟨n + n', t, o', es', ?_, ?_⟩
    · rw [runWords_cons ws (by rw [transact, hp, onNext])]
      exact ht
    · rw [runEdges_add n' htaken, hrun']
      rfl

/-- Settles O53: the run of `runEdges_fair`; the words leave the queue and the buffer empty. -/
theorem fairConsumerEndsEveryRun : Obligations.FairConsumerEndsEveryRun := by
  intro s hn hf
  obtain ⟨n, t, o, es, hwords, hrun⟩ := runEdges_fair rfl hn hf
  obtain ⟨_, hframe⟩ := runWords_frame hwords
  have hqueue : t.cmdQueue = [] := by rw [hframe]
  have hbuf : t.tokenBuf = [] := runWords_drained hwords rfl
  exact ⟨n, t, _, hwords, hrun, rfl, hqueue, hbuf⟩

/-- With nothing scheduled the levels hold. -/
theorem runEdges_pins_of_nil {n : Nat} {s t : State} (h : runEdges n s = .next t) (hedges : s.edges = []) :
    t.outReady = s.outReady ∧ t.edges = [] := by
  induction n generalizing s with
  | zero => cases h; exact ⟨rfl, hedges⟩
  | succ n ih =>
    obtain ⟨u, hu⟩ := clockEdge_next s
    obtain ⟨-, hready, hlater⟩ := clockEdge_pins hu
    rw [advancePins_of_nil hedges] at hready hlater
    rw [runEdges_succ n hu] at h
    rw [← hready]
    exact ih h (hlater.trans hedges)

/-- Settles O39: a consumer that always accepts is fair, and with nothing scheduled its levels are the same at
the end. -/
theorem clockedRunIsTheTransactionRun : Obligations.ClockedRunIsTheTransactionRun := by
  intro ws s hrst hready hedges hbuf hqueue
  have hn : s.NoReset := ⟨hrst, by simp [hedges]⟩
  obtain ⟨n, t, o, es, hwords, hrun⟩ := runEdges_fair hqueue hn (fairConsumer_of_ready hready hedges)
  obtain ⟨hready', hedges'⟩ := runEdges_pins_of_nil hrun hedges
  obtain ⟨_, hframe⟩ := runWords_frame hwords
  have htready : t.outReady = o := by rw [hframe]; exact hready'.symm
  have htedges : t.edges = es := by rw [hframe]; exact hedges.trans hedges'.symm
  have hsame : withPins o es t = t := by
    rw [← htready, ← htedges]
    rfl
  rw [takeAll_of_nil hbuf] at hwords
  exact ⟨n, t, hwords, hrun.trans (congrArg _ hsame)⟩

end Sys2Proof.Machine
end

section
/-! The assembler's lines: which are accepted, and their words (30_encoding.md R69 to R72). -/

namespace Sys2Proof.Machine

theorem AsmResult.andThen_ok_iff {α β : Type} {r : AsmResult α} {f : α → AsmResult β} :
    (∃ b, r.andThen f = .ok b) ↔ ∃ a, r = .ok a ∧ ∃ b, f a = .ok b := by
  cases r <;> simp [AsmResult.andThen]

theorem AsmResult.ite_ok_iff {α : Type} {c : Bool} {a : α} {e : AsmError} :
    (∃ b, (if c then AsmResult.ok a else .error e) = .ok b) ↔ c = true := by
  cases c <;> simp

theorem operandVsel_ok_iff {v : VariantOperand} : (∃ vsel, operandVsel v = .ok vsel) ↔ v.wf = true := by
  cases v with
  | number n => exact AsmResult.ite_ok_iff
  | name v => exact ⟨fun _ => rfl, fun _ => ⟨_, rfl⟩⟩

theorem argBytes_ok_iff {args : AsmArgs} : (∃ bytes, argBytes args = .ok bytes) ↔ args.wf = true := by
  cases args with
  | bytes bs => exact AsmResult.ite_ok_iff
  | text cs => exact AsmResult.ite_ok_iff

/-- A line that takes a variant alone is accepted when the variant is. -/
theorem oneVariant_ok_iff {v : VariantOperand} {f : Vsel → List CmdWord} :
    (∃ ws, (operandVsel v).andThen (fun vsel => .ok (f vsel)) = .ok ws) ↔ v.wf = true := by
  rw [AsmResult.andThen_ok_iff, ← operandVsel_ok_iff]
  exact exists_congr fun vsel => and_iff_left ⟨f vsel, rfl⟩

theorem assembleEncode_ok_iff {v : VariantOperand} {args : AsmArgs} :
    (∃ ws, assembleEncode v args = .ok ws) ↔ v.wf = true ∧ args.wf = true := by
  simp only [assembleEncode, AsmResult.andThen_ok_iff, ← operandVsel_ok_iff, ← argBytes_ok_iff]
  simp

/-- The assembler accepts exactly the well-formed lines (R71). -/
theorem assembleLine_ok_iff {l : AsmLine} : (∃ ws, assembleLine l = .ok ws) ↔ l.wf = true := by
  cases l with
  | byte n => exact AsmResult.ite_ok_iff
  | start v => exact oneVariant_ok_iff
  | startn v => exact oneVariant_ok_iff
  | endFrame => exact ⟨fun _ => rfl, fun _ => ⟨_, rfl⟩⟩
  | word n => exact AsmResult.ite_ok_iff
  | encode v args => exact assembleEncode_ok_iff.trans Bool.and_eq_true_iff.symm
  | encodeNull v => exact oneVariant_ok_iff
  | encodeAs v args => exact assembleEncode_ok_iff.trans (and_iff_right rfl)

/-- Settles O51: the assembler's own check is `AsmLine.wf`, whose cases are the ranges. -/
theorem assemblerRefusesExactlyTheIllFormed : Obligations.AssemblerRefusesExactlyTheIllFormed := by
  unfold Obligations.AssemblerRefusesExactlyTheIllFormed
  intro inRange argsInRange accepted l
  have operand (v : VariantOperand) : v.wf = true ↔ inRange v := by
    cases v <;> simp [VariantOperand.wf, inRange]
  have arguments (args : AsmArgs) : args.wf = true ↔ argsInRange args := by
    cases args <;> simp [AsmArgs.wf, imm8Ok, asciiOk, argsInRange]
  have hwf : l.wf = true ↔ accepted l := by
    cases l with
    | byte n => exact decide_eq_true_iff
    | start v => exact operand v
    | startn v => exact operand v
    | endFrame => exact iff_of_true rfl trivial
    | word n => exact decide_eq_true_iff
    | encode v args => exact Bool.and_eq_true_iff.trans (and_congr (operand v) (arguments args))
    | encodeNull v => exact operand v
    | encodeAs v args => exact arguments args
  exact ⟨assembleLine_ok_iff.trans hwf, hwf⟩

theorem expandEncode_words (vsel : Vsel) (bytes : List Byte) :
    (expandEncode vsel bytes).map encode = frameWords vsel bytes := by
  simp [expandEncode, frameWords, openWords]

theorem assembleEncode_of_ok {v : VariantOperand} {vsel : Vsel} {args : AsmArgs} {bytes : List Byte}
    (hv : operandVsel v = .ok vsel) (hargs : argBytes args = .ok bytes) :
    assembleEncode v args = .ok (frameWords vsel bytes) := by
  rw [assembleEncode, hv, hargs, ← expandEncode_words]
  rfl

theorem argBytes_bytes {bs : List Nat} (h : ∀ n ∈ bs, n < 256) : argBytes (.bytes bs) = .ok (bs.map (BitVec.ofNat 8)) :=
  if_pos (by simpa [imm8Ok] using h)

theorem argBytes_text {cs : List Char} (h : ∀ c ∈ cs, c.toNat < 128) :
    argBytes (.text cs) = .ok (cs.map (fun c => BitVec.ofNat 8 c.toNat)) :=
  if_pos (by simpa [asciiOk] using h)

theorem encode_byte_ofNat {n : Nat} (h : n < 256) : encode (.byte (BitVec.ofNat 8 n)) = BitVec.ofNat 11 n := by
  apply BitVec.eq_of_toNat_eq
  rw [encode_byte_toNat, BitVec.toNat_ofNat, BitVec.toNat_ofNat]
  omega

theorem encode_start_eq_ofNat (v : Vsel) : encode (.start v) = BitVec.ofNat 11 (0x100 + v.toNat) := by
  rw [← encode_start_toNat, BitVec.ofNat_toNat, BitVec.setWidth_eq]

theorem encode_startn_eq_ofNat (v : Vsel) : encode (.startn v) = BitVec.ofNat 11 (0x200 + v.toNat) := by
  rw [← encode_startn_toNat, BitVec.ofNat_toNat, BitVec.setWidth_eq]

/-- Settles O52: each line's words by its form. -/
theorem assembledWords : Obligations.AssembledWords := by
  refine ⟨?byte, ?variant, rfl, ?word, ?encode, ?encodeBytes, ?encodeText, fun _ _ => rfl⟩
  case byte =>
    intro n h
    have hok : imm8Ok n = true := decide_eq_true h
    rw [assembleLine, if_pos hok, encode_byte_ofNat h]
  case variant =>
    intro v vsel hv
    refine ⟨?_, ?_, rfl⟩
    · rw [assembleLine, hv, ← encode_start_eq_ofNat]
      rfl
    · rw [assembleLine, hv, ← encode_startn_eq_ofNat]
      rfl
  case word => exact fun n h => if_pos (decide_eq_true h)
  case encode => exact fun v vsel args bytes hv hargs => assembleEncode_of_ok hv hargs
  case encodeBytes => exact fun v vsel bs hv h => assembleEncode_of_ok hv (argBytes_bytes h)
  case encodeText => exact fun v vsel cs hv h => assembleEncode_of_ok hv (argBytes_text h)

end Sys2Proof.Machine
end
